-- ==== Sys2Proof/Word.lean ====
section
/-! DEFINITION. The fixed widths of the machine: the Word, the operand field, the port and the opcode (00_scope R5, R6).
The width of PC and of memory addresses is a parameter (`Params.addrBits`). -/

namespace Sys2Proof

/-- A Word: an unsigned 16-bit value (00_scope R6; `WORD_BITS` = 16). -/
abbrev Word := BitVec 16

/-- A byte of the port sequences (20_memory R41, R57). -/
abbrev Byte := BitVec 8

/-- The operand field of an instruction (00_scope R5, `OPERAND_BITS` = 12). -/
abbrev Operand := BitVec 12

/-- A port address after narrowing (00_scope R5, `PORT_BITS` = 8). -/
abbrev Port := BitVec 8

/-- The opcode field (00_scope R5, `OPCODE_BITS` = 4). -/
abbrev Opcode := BitVec 4

end Sys2Proof
end

