-- ==== Sys2Proof/Config.lean ====
section
/-! DEFINITION. The implementation parameters of 00_scope R5 and the free values of the environment.
The fixed widths stand in Word.lean; the device list is held by State (notes/assumptions/2.md, 3.md). -/

namespace Sys2Proof

/-- The 16 mnemonics, an exhaustive closed set (00_scope R2). -/
inductive Mnemonic where
  | halt | load | store | add | sub | and | or | xor
  | not | shl | shr | bra | brp | brz | inp | out
  deriving DecidableEq, Repr

/-- The mnemonics in the order of 00_scope R2. -/
def Mnemonic.all : List Mnemonic :=
  [.halt, .load, .store, .add, .sub, .and, .or, .xor, .not, .shl, .shr, .bra, .brp, .brz, .inp, .out]

/-- `OPCODE_MAP`: the bidirectional table between opcodes and mnemonics (30_encoding R73), one row an entry. -/
abbrev OpcodeMap := List (Opcode × Mnemonic)

/-- The opcode map of 30_encoding R73 (the spec's decision D1; notes/assumptions/10.md). -/
def Config.opcodeMap : OpcodeMap :=
  [(0x0#4, .halt), (0x1#4, .load), (0x2#4, .store), (0x3#4, .add),
   (0x4#4, .sub), (0x5#4, .and), (0x6#4, .or), (0x7#4, .xor),
   (0x8#4, .not), (0x9#4, .shl), (0xA#4, .shr), (0xB#4, .bra),
   (0xC#4, .brp), (0xD#4, .brz), (0xE#4, .inp), (0xF#4, .out)]

/-- The parameters of 00_scope R5 that a statement may quantify over, and `SHIFT_SWAPPED` of 92 D7. -/
structure Params where
  /-- `ADDR_BITS`, the width of PC and of every memory address the CPU issues (92 D2, 93 I6;
  notes/assumptions/12.md). -/
  addrBits : Nat
  /-- `OPCODE_MAP`. -/
  opcodeMap : OpcodeMap
  /-- `IN_PORT`, the fixed input port address. -/
  inPort : Port
  /-- `OUT_PORT`, the fixed output port address. -/
  outPort : Port
  /-- `SHIFT_SWAPPED` (92 D7, 93 I5): false gives SHL toward bit 15 and SHR toward bit 0. -/
  shiftSwapped : Bool
  deriving DecidableEq, Repr

/-- The values 00_scope R5 gives for this hardware. -/
def Config.params : Params where
  addrBits := 12
  opcodeMap := Config.opcodeMap
  inPort := 0x00#8
  outPort := 0x01#8
  shiftSwapped := false

/-- `RAM_SIZE` of the reference platform (92 D12). -/
def Config.ramSize : Nat := 4096

/-- What a device's `read` gives (20_memory R48, R53): a Word, null, or nothing yet. -/
inductive DeviceAnswer where
  | word (w : Word)
  | null
  | hold
  deriving DecidableEq, Repr, Inhabited

/-- One event in the life of a device of unknown behaviour: a read that was answered, a write, or a spell
of waiting in which the environment could act. -/
inductive DeviceEvent where
  | read (address : Nat)
  | wrote (address : Nat) (v : Word)
  | waited
  deriving DecidableEq, Repr

/-- FREE VALUE (notes/assumptions/6.md): the input bytes that reach an input-capable device while the CPU
waits on it for the n-th time; any number of them, none among the possibilities (20_memory R53, 44_io R173). -/
opaque Config.arrivals : Nat → List Byte

/-- FREE VALUE (notes/assumptions/5.md): what external device `id` answers to a read of an address, after the
events `history` (20_memory R48; 93 I9: the behaviour of a device is its own). -/
opaque Config.externalAnswer : (id : Nat) → (history : List DeviceEvent) → (address : Nat) → DeviceAnswer

end Sys2Proof
end

