-- ==== Sys2Proof/Syntax.lean ====
section
/-! DEFINITION. The instructions: one constructor per row of spec/opcode_table.json. Every instruction carries its
12-bit operand field, the ignored ones too: decode and encode are inverse on whole Words (30_encoding R78) and the
disassembler shows the field (R80). -/

namespace Sys2Proof

/-- An instruction: a mnemonic and its operand field (30_encoding R70 to R73). -/
inductive Instr where
  /-- HALT (40_cycle R116); the operand is ignored. -/
  | halt (operand : Operand)
  /-- LOAD (41_load_store R130); the operand is the memory address of the data Word. -/
  | load (operand : Operand)
  /-- STORE (41_load_store R131); the operand is the memory address of the data Word. -/
  | store (operand : Operand)
  /-- ADD (42_alu R141); the operand is the memory address of the data Word. -/
  | add (operand : Operand)
  /-- SUB (42_alu R142); the operand is the memory address of the data Word. -/
  | sub (operand : Operand)
  /-- AND (42_alu R143); the operand is the memory address of the data Word. -/
  | and (operand : Operand)
  /-- OR (42_alu R144); the operand is the memory address of the data Word. -/
  | or (operand : Operand)
  /-- XOR (42_alu R145); the operand is the memory address of the data Word. -/
  | xor (operand : Operand)
  /-- NOT (42_alu R146); the operand is ignored. -/
  | not (operand : Operand)
  /-- SHL (42_alu R147); the operand is ignored. -/
  | shl (operand : Operand)
  /-- SHR (42_alu R148); the operand is ignored. -/
  | shr (operand : Operand)
  /-- BRA (43_branch R160); the operand is the branch target. -/
  | bra (operand : Operand)
  /-- BRP (43_branch R161); the operand is the branch target. -/
  | brp (operand : Operand)
  /-- BRZ (43_branch R162); the operand is the branch target. -/
  | brz (operand : Operand)
  /-- INP (44_io R170); the operand is ignored. -/
  | inp (operand : Operand)
  /-- OUT (44_io R171); the operand is ignored. -/
  | out (operand : Operand)
  deriving DecidableEq, Repr

/-- The instruction's mnemonic (30_encoding R73). -/
def Instr.mnemonic : Instr → Mnemonic
  | .halt _ => .halt
  | .load _ => .load
  | .store _ => .store
  | .add _ => .add
  | .sub _ => .sub
  | .and _ => .and
  | .or _ => .or
  | .xor _ => .xor
  | .not _ => .not
  | .shl _ => .shl
  | .shr _ => .shr
  | .bra _ => .bra
  | .brp _ => .brp
  | .brz _ => .brz
  | .inp _ => .inp
  | .out _ => .out

/-- The instruction's operand field (30_encoding R70). -/
def Instr.operand : Instr → Operand
  | .halt x => x
  | .load x => x
  | .store x => x
  | .add x => x
  | .sub x => x
  | .and x => x
  | .or x => x
  | .xor x => x
  | .not x => x
  | .shl x => x
  | .shr x => x
  | .bra x => x
  | .brp x => x
  | .brz x => x
  | .inp x => x
  | .out x => x

/-- The instruction with a mnemonic and an operand field. -/
def Instr.make : Mnemonic → Operand → Instr
  | .halt, x => .halt x
  | .load, x => .load x
  | .store, x => .store x
  | .add, x => .add x
  | .sub, x => .sub x
  | .and, x => .and x
  | .or, x => .or x
  | .xor, x => .xor x
  | .not, x => .not x
  | .shl, x => .shl x
  | .shr, x => .shr x
  | .bra, x => .bra x
  | .brp, x => .brp x
  | .brz, x => .brz x
  | .inp, x => .inp x
  | .out, x => .out x

/-- A pair the toolchain packs: a mnemonic and an operand of any size (30_encoding R77, R79). -/
structure RawInstr where
  mnemonic : Mnemonic
  operand : Nat
  deriving DecidableEq, Repr

end Sys2Proof
end

