-- ==== Sys2Proof/WellFormed.lean ====
section
/-! DEFINITION. What the encoding tables and the toolchain's pairs must satisfy. An `Instr` by itself has no
ill-formed operand (its field has 12 bits); it is ill-formed for a table that has no row for its mnemonic. -/

namespace Sys2Proof

/-- The opcode map is a table one can read both ways: no opcode and no mnemonic has two rows
(30_encoding R73 "A bidirectional table"). -/
abbrev OpcodeMap.wf (m : OpcodeMap) : Prop := (m.map Prod.fst).Nodup ∧ (m.map Prod.snd).Nodup

/-- The opcode map is full: every 4-bit opcode and every mnemonic has a row (30_encoding R73, R74). -/
abbrev OpcodeMap.full (m : OpcodeMap) : Prop :=
  (∀ op : Opcode, op ∈ m.map Prod.fst) ∧ ∀ mn ∈ Mnemonic.all, mn ∈ m.map Prod.snd

/-- The instruction has an opcode in this map (40_cycle R118: a partial map leaves some without). -/
abbrev Instr.wf (m : OpcodeMap) (i : Instr) : Prop := i.mnemonic ∈ m.map Prod.snd

/-- A valid pair has an operand in 0..0xFFF (30_encoding R78; 92 D19). -/
abbrev RawInstr.valid (r : RawInstr) : Prop := r.operand ≤ 0xFFF

end Sys2Proof
end

