-- ==== Sys2Proof/Decode.lean ====
section
/-! DEFINITION. The decoder (30_encoding R71, R73, R74), total on every Word, and the encoder (R77, R78). -/

namespace Sys2Proof

/-! ### The table, both ways -/

/-- The mnemonic the map gives an opcode, if it has a row (30_encoding R73). -/
def OpcodeMap.mnemonicOf (m : OpcodeMap) (op : Opcode) : Option Mnemonic :=
  (m.find? fun row => row.1 == op).map Prod.snd

/-- The opcode the map gives a mnemonic, if it has a row (30_encoding R73). -/
def OpcodeMap.opcodeOf (m : OpcodeMap) (mn : Mnemonic) : Option Opcode :=
  (m.find? fun row => row.2 == mn).map Prod.fst

/-! ### Decoder -/

/-- `w[15:12]` (30_encoding R71). -/
def opcodeField (w : Word) : Opcode := w.extractLsb' 12 4

/-- `w[11:0]`, never sign-extended or scaled (30_encoding R71). -/
def operandField (w : Word) : Operand := w.extractLsb' 0 12

/-- What decoding a Word gives: an instruction, or the named rejection of 40_cycle R118. -/
inductive Decoded where
  | instr (i : Instr)
  | illegalOpcode (w : Word)
  deriving DecidableEq, Repr

/-- Decode a fetched Word under an opcode map (40_cycle R113, R118). -/
def decode (m : OpcodeMap) (w : Word) : Decoded :=
  match m.mnemonicOf (opcodeField w) with
  | some mn => .instr (Instr.make mn (operandField w))
  | none => .illegalOpcode w

/-- The decoder on an instruction whose bits are numbered as spec/opcode_table.json numbers them: one Word,
bits 15:0 (30_encoding R70), bits above `nbits` zero. -/
def decodeTableWord (nbits w : Nat) : Option Instr :=
  match decode Config.opcodeMap (BitVec.ofNat 16 (w % 2 ^ nbits)) with
  | .instr i => some i
  | .illegalOpcode _ => none

/-! ### Encoder -/

/-- Put the two fields of format W together (30_encoding R70). -/
def packFields (op : Opcode) (x : Operand) : Word := op ++ x

/-- The Word of an instruction under an opcode map; none for an instruction the map has no row for. -/
def encode (m : OpcodeMap) (i : Instr) : Option Word :=
  (m.opcodeOf i.mnemonic).map fun op => packFields op i.operand

/-- Why the toolchain's encoder refuses a pair: `EncodingOverflow` (30_encoding R77), or an operand above 0xFFF
that would reach into the opcode field (R79, 92 D19). -/
inductive EncodeError where
  | encodingOverflow
  | operandTooWide
  deriving DecidableEq, Repr

/-- The packing rule as the source states it, on unbounded integers: its only check is on the Word's width, so an
operand of 0x1000..0xFFFF reaches into the opcode field (30_encoding R77, R79). -/
def packUnchecked (opcode operand : Nat) : Except EncodeError Word :=
  let word := (opcode <<< 12) ||| operand
  if word > 0xFFFF then .error .encodingOverflow else .ok (BitVec.ofNat 16 word)

/-- The model's encoder of a pair: R77, and then the refusal of an operand above 0xFFF (30_encoding R79; 92 D19). -/
def packPair (opcode : Opcode) (operand : Nat) : Except EncodeError Word :=
  match packUnchecked opcode.toNat operand with
  | .error e => .error e
  | .ok w => if operand ≤ 0xFFF then .ok w else .error .operandTooWide

end Sys2Proof
end

