-- ==== Sys2Proof/Machine/State.lean ====
section
/-! DEFINITION. The state of the machine as plain data (10_state R20), and the state after reset (R33). -/

namespace Sys2Proof.Machine

/-- Which read a `NoData` condition belongs to (60_exceptions R180). -/
inductive Phase where
  | fetch | data | port
  deriving DecidableEq, Repr

/-- The CPU's fatal conditions (60_exceptions R180). `State.raise` records one in `State.fault`, and the step that
raises it answers the next state that holds the record (notes/assumptions/9.md); no step answers
`Outcome.fault`. -/
inductive Fault where
  /-- Raised by the decode of a step when the opcode has no row in OPCODE_MAP (40_cycle R118, 60_exceptions R181).
  It records the fetched Word. The spec's own condition, and neither safe nor unsafe. -/
  | illegalOpcode (w : Word)
  /-- Raised when a fetch, a LOAD/ADD/SUB/AND/OR/XOR operand read or an INP read returns the bus's no-data sentinel
  (60_exceptions R182). It records the phase and the address. The spec's own condition (92 D5, "toward unprovable":
  safe against the source). -/
  | noData (phase : Phase) (address : Nat)
  deriving DecidableEq, Repr

/-- Why the model has no meaning for an instruction. -/
inductive Refusal where
  /-- Would be answered by an arm of `exec` whose instruction has no meaning yet (safe). No arm does. -/
  | notModelled (mnemonic : String)
  deriving DecidableEq, Repr

/-- The cells of a storage device: (address, Word) pairs in the canonical form `Memory.wf`. A cell is a Word,
because an address names one Word (20_memory R41; notes/assumptions/1.md). -/
abbrev Memory := List (Nat × Word)

/-- One range of a device's `should_respond` predicate: `size` addresses from `base` in the space that `io` tells
(20_memory R40, R48). -/
structure Claim where
  io : Bool
  base : Nat
  size : Nat
  deriving DecidableEq, Repr

/-- What a device is and the storage it owns (20_memory R48; notes/assumptions/2.md). -/
inductive DeviceKind where
  /-- Storage: a read gives the last Word written (20_memory R50; the RAM of 92 D12). -/
  | storage (cells : Memory)
  /-- The console of 92 D12: the input bytes available, first to be read first, and the Words sent to it. -/
  | console (inPort outPort : Port) (input : List Byte) (output : List Word)
  /-- A device of unknown behaviour: its state is the list of its events (notes/assumptions/5.md). -/
  | external (id : Nat) (history : List DeviceEvent)
  deriving DecidableEq, Repr

/-- A device: its address predicate as data, and what it is. -/
structure Device where
  claims : List Claim
  kind : DeviceKind
  deriving DecidableEq, Repr

/-- Where in a step a read transaction waits (40_cycle R110 "may hold"; 44_io R173). -/
inductive HoldStage where
  | fetch
  | execute (i : Instr)
  deriving DecidableEq, Repr

/-- A read transaction in progress: the stage of the step it belongs to, and the place in the device list of the
device whose read blocks (20_memory R53; notes/assumptions/7.md). -/
structure Hold where
  stage : HoldStage
  device : Nat
  deriving DecidableEq, Repr

/-- The state of the machine (10_state R20). -/
structure State where
  /-- ACC (R21). -/
  acc : Word
  /-- The Zero flag Z (R23). -/
  zero : Bool
  /-- The Positive flag P (R24). -/
  positive : Bool
  /-- PC (R27): an address of `ADDR_BITS` bits, a number below 2^`params.addrBits`. `State.writePc` alone writes it and
  keeps it in that range (`State.pcInRange`; notes/assumptions/12.md). -/
  pc : Nat
  /-- The run flag (R29). -/
  active : Bool
  /-- The bus's io-request mode flag (R31). -/
  ioRequest : Bool
  /-- The fault status (R20; 60_exceptions R186). -/
  fault : Option Fault
  /-- DEVICES in registration order, each with its storage (20_memory R43). -/
  devices : List Device
  /-- The read transaction on hold, if the machine is blocked in one (70_reset R207 "Blocked"). -/
  hold : Option Hold
  /-- The MODEL's own: how often the environment has been waited for (notes/assumptions/6.md). -/
  arrivals : Nat
  /-- The parameters of 00_scope R5, fixed for a run (notes/assumptions/3.md). -/
  params : Params
  deriving DecidableEq, Repr

/-- The reference RAM (92 D12): `size` Words of the memory space from address 0, all 0x0000. -/
def referenceRam (size : Nat) : Device := ⟨[⟨false, 0, size⟩], .storage []⟩

/-- The reference console (92 D12): it answers the two fixed ports; no input has arrived and nothing was sent. -/
def referenceConsole (p : Params) : Device :=
  ⟨[⟨true, p.inPort.toNat, 1⟩, ⟨true, p.outPort.toNat, 1⟩], .console p.inPort p.outPort [] []⟩

/-- The machine after reset (10_state R33) on the reference platform of 92 D12 (notes/assumptions/4.md). -/
def State.reset : State where
  acc := 0x0000#16
  zero := true
  positive := true
  pc := 0x000
  active := true
  ioRequest := false
  fault := none
  devices := [referenceRam Config.ramSize, referenceConsole Config.params]
  hold := none
  arrivals := 0
  params := Config.params

end Sys2Proof.Machine
end

