-- ==== Sys2Proof/Machine/Memory.lean ====
section
/-! DEFINITION. The cells of a storage device: reading and writing one Word, and the canonical form. -/

namespace Sys2Proof.Machine

/-- What a cell that nothing has written reads as (92 D12 "cells start at 0x0000"; notes/assumptions/21.md). -/
def Memory.unlisted : Word := 0x0000#16

/-- The canonical form: addresses strictly rising, no entry equal to what an unlisted address reads as. -/
abbrev Memory.wf (m : Memory) : Prop :=
  m.Pairwise (fun c d => c.1 < d.1) ∧ ∀ c ∈ m, c.2 ≠ Memory.unlisted

/-- The Word at an address. -/
def Memory.read : Memory → Nat → Word
  | [], _ => Memory.unlisted
  | (k, v) :: m, a => if k = a then v else Memory.read m a

/-- Put a cell before the rest, or leave it out where it holds what an unlisted address reads as. -/
def Memory.put (a : Nat) (v : Word) (m : Memory) : Memory :=
  if v = Memory.unlisted then m else (a, v) :: m

/-- Write one Word, keeping the canonical form. -/
def Memory.write : Memory → Nat → Word → Memory
  | [], a, v => Memory.put a v []
  | (k, u) :: m, a, v =>
    if a < k then Memory.put a v ((k, u) :: m)
    else if a = k then Memory.put a v m
    else (k, u) :: Memory.write m a v

end Sys2Proof.Machine
end

