-- ==== Sys2Proof/Machine/Bus.lean ====
section
/-! DEFINITION. The devices' contract and the bus arbiter (20_memory R43 to R49). -/

namespace Sys2Proof.Machine

/-! ### One device (20_memory R48) -/

/-- The range takes in this address of this space. -/
def Claim.covers (c : Claim) (a : Nat) (io : Bool) : Bool :=
  c.io == io && decide (c.base ≤ a) && decide (a < c.base + c.size)

/-- `should_respond`: pure and deterministic (20_memory R48; 92 D20). -/
def Device.responds (d : Device) (a : Nat) (io : Bool) : Bool := d.claims.any fun c => c.covers a io

/-- `read`: the answer, and the device after it. A storage device answers its cell; the console hands out its next
input byte and holds while it has none (92 D12); an external device answers by a free value. -/
def DeviceKind.read (a : Nat) : DeviceKind → DeviceAnswer × DeviceKind
  | .storage cells => (.word (cells.read a), .storage cells)
  | .console inPort outPort input output =>
    if a = inPort.toNat then
      match input with
      | b :: rest => (.word (b.setWidth 16), .console inPort outPort rest output)
      | [] => (.hold, .console inPort outPort [] output)
    else (.null, .console inPort outPort input output)
  | .external id history =>
    match Config.externalAnswer id history a with
    | .hold => (.hold, .external id history)
    | answer => (answer, .external id (history ++ [.read a]))

/-- `write`: the device after it. The console appends what is written to its output port and ignores the rest
(92 D12). -/
def DeviceKind.write (a : Nat) (v : Word) : DeviceKind → DeviceKind
  | .storage cells => .storage (cells.write a v)
  | .console inPort outPort input output =>
    if a = outPort.toNat then .console inPort outPort input (output ++ [v])
    else .console inPort outPort input output
  | .external id history => .external id (history ++ [.wrote a v])

/-- The environment acts on a device that the CPU waits on: input may reach it (20_memory R53, 44_io R173). -/
def DeviceKind.await (bytes : List Byte) : DeviceKind → DeviceKind
  | .storage cells => .storage cells
  | .console inPort outPort input output => .console inPort outPort (input ++ bytes) output
  | .external id history => .external id (history ++ [.waited])

/-- A device with another kind and the same predicate. -/
def Device.withKind (d : Device) (k : DeviceKind) : Device := { d with kind := k }

/-- The device is plain storage. -/
def Device.isStorage (d : Device) : Bool :=
  match d.kind with
  | .storage _ => true
  | _ => false

/-- The Word a storage device holds at an address; none for a device that is no storage. -/
def Device.cell (d : Device) (a : Nat) : Option Word :=
  match d.kind with
  | .storage cells => some (cells.read a)
  | _ => none

/-! ### The arbiter -/

/-- Operand narrowing: `eff(addr, io)` (20_memory R44). -/
def effectiveAddress (a : Nat) (io : Bool) : Nat := if io then a % 256 else a

/-- How a read transaction stands: answered with a Word or with NoData (none), or held by the blocking device at a
place of the list (20_memory R45, R53). -/
inductive ReadResult where
  | answered (v : Option Word)
  | held (device : Nat)
  deriving DecidableEq, Repr

/-- A result on a list, for the list with one more device in front. -/
def ReadResult.shift : ReadResult → ReadResult
  | .answered v => .answered v
  | .held k => .held (k + 1)

/-- The outcome of a visit to a list, for the list with one more device in front. -/
def Bus.past (d : Device) (r : ReadResult × List Device) : ReadResult × List Device := (r.1.shift, d :: r.2)

/-- The visit of a bus read to the devices in registration order, at an effective address: every responding device's
`read` is invoked and the last answer wins, null too (20_memory R45; 92 D13, D25). `skip` devices have been visited
already, when a read on hold goes on; `result` is the answer so far. -/
def Bus.readFrom (a : Nat) (io : Bool) : (skip : Nat) → (result : Option Word) → List Device → ReadResult × List Device
  | _, result, [] => (.answered result, [])
  | skip + 1, result, d :: ds => Bus.past d (Bus.readFrom a io skip result ds)
  | 0, result, d :: ds =>
    if d.responds a io then
      match d.kind.read a with
      | (.hold, k) => (.held 0, d.withKind k :: ds)
      | (.word w, k) => Bus.past (d.withKind k) (Bus.readFrom a io 0 (some w) ds)
      | (.null, k) => Bus.past (d.withKind k) (Bus.readFrom a io 0 none ds)
    else Bus.past d (Bus.readFrom a io 0 result ds)

/-- `BusRead(addr, io)` from its first device (20_memory R45). -/
def Bus.read (addr : Nat) (io : Bool) (ds : List Device) : ReadResult × List Device :=
  Bus.readFrom (effectiveAddress addr io) io 0 none ds

/-- `BusWrite(addr, io, v)`: every responding device is written; none responding is no error (20_memory R46). -/
def Bus.write (addr : Nat) (io : Bool) (v : Word) (ds : List Device) : List Device :=
  ds.map fun d =>
    if d.responds (effectiveAddress addr io) io then d.withKind (d.kind.write (effectiveAddress addr io) v) else d

/-- `register_device`: appends; order is significant (20_memory R43). -/
def Bus.register (d : Device) (ds : List Device) : List Device := ds ++ [d]

end Sys2Proof.Machine
end

