-- ==== Sys2Proof/Machine/Flags.lean ====
section
/-! DEFINITION. Masking to the word width and the two derived flags (00_scope R7; 10_state R22 to R24). -/

namespace Sys2Proof.Machine

/-- "Masked to word width": the residue modulo 2^16, of a negative value too (00_scope R7). -/
def maskWord (v : Int) : Word := BitVec.ofInt 16 v

/-- Z: the stored value is zero (10_state R23). -/
def zeroFlag (v : Word) : Bool := v == 0#16

/-- P: bit 15 of the stored value is 0, a bit test (10_state R24). -/
def positiveFlag (v : Word) : Bool := !v.getLsbD 15

end Sys2Proof.Machine
end

