-- ==== Sys2Proof/Machine/Ops.lean ====
section
/-! DEFINITION. The named operations over the state: the accumulator write, the bus transactions, holds, the fatal
condition, the fetch, and the loader's write. There is no trap entry and so no return from one
(60_exceptions R186, R187): raising records the condition and nothing else. -/

namespace Sys2Proof.Machine

/-! ### Registers -/

/-- `ACC <- v`, the only write of ACC and of the flags: the value masked to 16 bits is stored, and both flags are
recomputed from what is stored (10_state R22). -/
def State.writeAcc (v : Int) (s : State) : State :=
  { s with acc := maskWord v, zero := zeroFlag (maskWord v), positive := positiveFlag (maskWord v) }

/-- A number at the width of PC and of every memory address the CPU issues: the residue modulo 2^`ADDR_BITS`
(00_scope R5; 40_cycle R112; 92 D2). -/
def State.wrapAddress (n : Nat) (s : State) : Nat := n % 2 ^ s.params.addrBits

/-- The memory address or branch target an operand field stands for: its value, zero-extended (30_encoding R71, R72),
at the width `ADDR_BITS` (notes/assumptions/12.md). -/
def State.addressOf (x : Operand) (s : State) : Nat := s.wrapAddress x.toNat

/-- `pc <- target`, the only write of PC, at its width (00_scope R8; 10_state R27). -/
def State.writePc (target : Nat) (s : State) : State := { s with pc := s.wrapAddress target }

/-- `active := false` (40_cycle R116). -/
def State.halt (s : State) : State := { s with active := false }

/-! ### Fatal conditions and holds -/

/-- `raise Fault(kind)`: the condition is recorded; nothing is saved, no mode changes and control goes nowhere
(60_exceptions R186). -/
def State.raise (f : Fault) (s : State) : State := { s with fault := some f }

/-- The machine blocks in a read: the stage of the step and the place of the blocking device are kept
(20_memory R53; notes/assumptions/7.md). -/
def State.suspend (stage : HoldStage) (device : Nat) (s : State) : State := { s with hold := some ⟨stage, device⟩ }

/-- The place in the device list a read transaction starts at: the first device, or the blocking device of the read
that goes on (notes/assumptions/18.md). -/
def State.resumePoint (s : State) : Nat :=
  match s.hold with
  | some h => h.device
  | none => 0

/-- While the machine is blocked the environment may act on the blocking device (44_io R173;
notes/assumptions/6.md). -/
def State.environmentActs (s : State) : State :=
  match s.hold with
  | some h =>
    { s with
      devices := s.devices.modify h.device fun d => d.withKind (d.kind.await (Config.arrivals s.arrivals))
      arrivals := s.arrivals + 1 }
  | none => s

/-! ### Bus transactions -/

/-- A bus read in the mode the io-request flag tells (10_state R20, R31; 20_memory R45). It starts a transaction, or
goes on with the one on hold; an answer ends the hold. -/
def State.busRead (addr : Nat) (s : State) : ReadResult × State :=
  let r := Bus.readFrom (effectiveAddress addr s.ioRequest) s.ioRequest s.resumePoint none s.devices
  (r.1, { s with devices := r.2, hold := none })

/-- A bus write in the mode the io-request flag tells (10_state R20, R31; 20_memory R46). -/
def State.busWrite (addr : Nat) (v : Word) (s : State) : State :=
  { s with devices := Bus.write addr s.ioRequest v s.devices }

/-- `set_io_request()` (10_state R31). -/
def State.setIoRequest (s : State) : State := { s with ioRequest := true }

/-- `clear_io_request()` (10_state R31). -/
def State.clearIoRequest (s : State) : State := { s with ioRequest := false }

/-- `PortRead(p)`: set io-request, read, clear io-request (44_io R172). While the read is on hold the flag stays set:
the sequence has not reached its last line. -/
def State.portRead (p : Port) (s : State) : ReadResult × State :=
  match s.setIoRequest.busRead p.toNat with
  | (.answered v, t) => (.answered v, t.clearIoRequest)
  | (.held k, t) => (.held k, t)

/-- `PortWrite(p, v)`: set io-request, write, clear io-request (44_io R172). -/
def State.portWrite (p : Port) (v : Word) (s : State) : State :=
  (s.setIoRequest.busWrite p.toNat v).clearIoRequest

/-! ### Fetch -/

/-- What fetching and decoding come to: an instruction to execute, or the end of the step before execute (a hold or
a fatal condition). -/
inductive Fetched where
  | ready (i : Instr) (s : State)
  | stopped (s : State)
  deriving DecidableEq, Repr

/-- Fetch, PC increment, decode (40_cycle R110 to R113, R118): the Word at PC is read over the bus, PC is incremented
modulo 2^`ADDR_BITS`, NoData is fatal, and an opcode without a row is fatal. -/
def State.fetchDecode (s : State) : Fetched :=
  match s.busRead s.pc with
  | (.held k, t) => .stopped (t.suspend .fetch k)
  | (.answered none, t) => .stopped ((t.writePc (s.pc + 1)).raise (.noData .fetch s.pc))
  | (.answered (some w), t) =>
    match decode s.params.opcodeMap w with
    | .illegalOpcode w => .stopped ((t.writePc (s.pc + 1)).raise (.illegalOpcode w))
    | .instr i => .ready i (t.writePc (s.pc + 1))

/-! ### Outside a run -/

/-- One line of the loader: `BusWrite(address, false, word)` (30_encoding R91; 70_reset R202). -/
def State.loadWord (addr : Nat) (v : Word) (s : State) : State := { s with devices := Bus.write addr false v s.devices }

/-- The machine has an instruction to run next: not faulted, active, no read on hold. -/
def State.awake (s : State) : State := { s with active := true, fault := none, hold := none, ioRequest := false }

/-- A storage device of one cell, and the devices that do not answer its address before it: used where no device
of the platform would give the loaded Word back (notes/assumptions/14.md). -/
def Bus.withCell (addr : Nat) (v : Word) (ds : List Device) : List Device :=
  Bus.register ⟨[⟨false, addr, 1⟩], .storage (Memory.write [] addr v)⟩ (ds.filter fun d => !d.responds addr false)

/-- The Word loaded where the next fetch reads it: by the loader's write, and where the platform does not store it
there, by a cell of its own (notes/assumptions/14.md). -/
def State.placeAtPc (v : Word) (s : State) : State :=
  if ((s.loadWord s.pc v).busRead s.pc).1 = .answered (some v) then s.loadWord s.pc v
  else { s with devices := Bus.withCell s.pc v s.devices }

end Sys2Proof.Machine
end

