-- ==== Sys2Proof/Machine/Operands.lean ====
section
/-! DEFINITION. The operand roles of 30_encoding R72: the Word at an absolute memory address, and the byte of the
fixed input port. A branch target is the operand field itself, and the other instructions use no operand. -/

namespace Sys2Proof.Machine

/-- What an instruction does with a read transaction's outcome: it goes on with the Word, takes the fatal condition
`NoData` (60_exceptions R182), or blocks until the device answers (20_memory R53). -/
def State.useRead (i : Instr) (phase : Phase) (addr : Nat) (use : Word → State → State) :
    ReadResult × State → State
  | (.held k, t) => t.suspend (.execute i) k
  | (.answered none, t) => t.raise (.noData phase addr)
  | (.answered (some v), t) => use v t

/-- `fetch_operand(addr)`, at the address the operand field stands for: the memory operand of LOAD, ADD, SUB, AND, OR and XOR (41_load_store R130; 42_alu R140). -/
def State.withMemory (i : Instr) (x : Operand) (use : Word → State → State) (s : State) : State :=
  State.useRead i .data (s.addressOf x) use (s.busRead (s.addressOf x))

/-- The Word of the fixed input port (44_io R170). -/
def State.withInPort (i : Instr) (use : Word → State → State) (s : State) : State :=
  State.useRead i .port s.params.inPort.toNat use (s.portRead s.params.inPort)

/-- `zext_16(v[7:0])`: the low byte of a Word as a Word (20_memory R57; 44_io R170, R171; 92 D6, D26). -/
def lowByte (v : Word) : Word := (v.extractLsb' 0 8).setWidth 16

end Sys2Proof.Machine
end

