-- ==== Sys2Proof/Machine/Alu.lean ====
section
/-! DEFINITION. ADD, SUB, AND, OR, XOR, NOT, SHL, SHR (42_alu). Every result goes to ACC through `State.writeAcc`,
which masks it to 16 bits and recomputes Z and P. -/

namespace Sys2Proof.Machine

/-- ADD: `ACC <- (ACC + m) mod 2^16` (42_alu R141). -/
def execAdd (operand : Operand) (s : State) : Host.Outcome State Fault Refusal :=
  .next (s.withMemory (.add operand) operand fun m t => t.writeAcc ((t.acc.toNat : Int) + m.toNat))

/-- SUB: `ACC <- (ACC - m) mod 2^16`, ACC minus memory (42_alu R142). -/
def execSub (operand : Operand) (s : State) : Host.Outcome State Fault Refusal :=
  .next (s.withMemory (.sub operand) operand fun m t => t.writeAcc ((t.acc.toNat : Int) - m.toNat))

/-- AND: `ACC <- ACC & m` (42_alu R143). -/
def execAnd (operand : Operand) (s : State) : Host.Outcome State Fault Refusal :=
  .next (s.withMemory (.and operand) operand fun m t => t.writeAcc (t.acc &&& m).toNat)

/-- OR: `ACC <- ACC | m` (42_alu R144). -/
def execOr (operand : Operand) (s : State) : Host.Outcome State Fault Refusal :=
  .next (s.withMemory (.or operand) operand fun m t => t.writeAcc (t.acc ||| m).toNat)

/-- XOR: `ACC <- ACC ^ m` (42_alu R145). -/
def execXor (operand : Operand) (s : State) : Host.Outcome State Fault Refusal :=
  .next (s.withMemory (.xor operand) operand fun m t => t.writeAcc (t.acc ^^^ m).toNat)

/-- NOT: the bitwise complement of ACC (42_alu R146). -/
def execNot (_operand : Operand) (s : State) : Host.Outcome State Fault Refusal :=
  .next (s.writeAcc (~~~s.acc).toNat)

/-- One bit toward bit 15, zero into bit 0; the bit out of bit 15 is masked off (42_alu R147). -/
def shiftLeft (v : Word) : Int := (v.toNat <<< 1 : Nat)

/-- One bit toward bit 0, zero into bit 15 (42_alu R148). -/
def shiftRight (v : Word) : Int := (v.toNat >>> 1 : Nat)

/-- SHL: one bit left, or right where `SHIFT_SWAPPED` says the original swapped the two (42_alu R147; 92 D7). -/
def execShl (_operand : Operand) (s : State) : Host.Outcome State Fault Refusal :=
  .next (s.writeAcc (if s.params.shiftSwapped then shiftRight s.acc else shiftLeft s.acc))

/-- SHR: one bit right, logically, or left where `SHIFT_SWAPPED` says so (42_alu R148; 92 D7). -/
def execShr (_operand : Operand) (s : State) : Host.Outcome State Fault Refusal :=
  .next (s.writeAcc (if s.params.shiftSwapped then shiftLeft s.acc else shiftRight s.acc))

end Sys2Proof.Machine
end

