-- ==== Sys2Proof/Machine/Branch.lean ====
section
/-! DEFINITION. BRA, BRP, BRZ (43_branch). A branch not taken leaves PC where the fetch put it. -/

namespace Sys2Proof.Machine

/-- BRA: `pc <- operand` (43_branch R160). -/
def execBra (operand : Operand) (s : State) : Host.Outcome State Fault Refusal := .next (s.writePc operand.toNat)

/-- BRP: `if P: pc <- operand` (43_branch R161). -/
def execBrp (operand : Operand) (s : State) : Host.Outcome State Fault Refusal :=
  .next (if s.positive then s.writePc operand.toNat else s)

/-- BRZ: `if Z: pc <- operand` (43_branch R162). -/
def execBrz (operand : Operand) (s : State) : Host.Outcome State Fault Refusal :=
  .next (if s.zero then s.writePc operand.toNat else s)

end Sys2Proof.Machine
end

