-- ==== Sys2Proof/Machine/Cycle.lean ====
section
/-! DEFINITION. HALT (40_cycle R116). -/

namespace Sys2Proof.Machine

/-- HALT: `active := false`; nothing else, and no bus access (40_cycle R116). -/
def execHalt (_operand : Operand) (s : State) : Host.Outcome State Fault Refusal := .next s.halt

end Sys2Proof.Machine
end

