-- ==== Sys2Proof/Machine/LoadStore.lean ====
section
/-! DEFINITION. LOAD and STORE (41_load_store R130, R131). -/

namespace Sys2Proof.Machine

/-- LOAD: the Word at the operand address goes to ACC (41_load_store R130). -/
def execLoad (operand : Operand) (s : State) : Host.Outcome State Fault Refusal :=
  .next (s.withMemory (.load operand) operand fun m t => t.writeAcc m.toNat)

/-- STORE: ACC goes to the operand address; no flag, no fault (41_load_store R131). -/
def execStore (operand : Operand) (s : State) : Host.Outcome State Fault Refusal :=
  .next (s.busWrite (s.addressOf operand) s.acc)

end Sys2Proof.Machine
end

