-- ==== Sys2Proof/Machine/PortIo.lean ====
section
/-! DEFINITION. INP and OUT (44_io). The operand field plays no part. -/

namespace Sys2Proof.Machine

/-- INP: the low byte of the input port's Word goes to ACC (44_io R170; 92 D6). A hold records INP without its
operand field, which is ignored: every value executes identically (30_encoding R75). -/
def execInp (_operand : Operand) (s : State) : Host.Outcome State Fault Refusal :=
  .next (s.withInPort (.inp 0#12) fun v t => t.writeAcc (lowByte v).toNat)

/-- OUT: ACC's low byte goes to the output port; no flag, no fault (44_io R171). -/
def execOut (_operand : Operand) (s : State) : Host.Outcome State Fault Refusal :=
  .next (s.portWrite s.params.outPort (lowByte s.acc))

end Sys2Proof.Machine
end

