-- ==== Sys2Proof/Machine/Dispatch.lean ====
section
/-! DEFINITION. The execute phase: a closed match over the 16 instructions (40_cycle R114). -/

namespace Sys2Proof.Machine

/-- One instruction, PC already incremented by the fetch (40_cycle R112, R114). -/
def exec (i : Instr) (s : State) : Host.Outcome State Fault Refusal :=
  match i with
  | .halt x => Sys2Proof.Machine.execHalt x s
  | .load x => Sys2Proof.Machine.execLoad x s
  | .store x => Sys2Proof.Machine.execStore x s
  | .add x => Sys2Proof.Machine.execAdd x s
  | .sub x => Sys2Proof.Machine.execSub x s
  | .and x => Sys2Proof.Machine.execAnd x s
  | .or x => Sys2Proof.Machine.execOr x s
  | .xor x => Sys2Proof.Machine.execXor x s
  | .not x => Sys2Proof.Machine.execNot x s
  | .shl x => Sys2Proof.Machine.execShl x s
  | .shr x => Sys2Proof.Machine.execShr x s
  | .bra x => Sys2Proof.Machine.execBra x s
  | .brp x => Sys2Proof.Machine.execBrp x s
  | .brz x => Sys2Proof.Machine.execBrz x s
  | .inp x => Sys2Proof.Machine.execInp x s
  | .out x => Sys2Proof.Machine.execOut x s

end Sys2Proof.Machine
end

