-- ==== Sys2Proof/Machine/Step.lean ====
section
/-! DEFINITION. One step of the machine (40_cycle R110), and the placing of the next instruction. -/

namespace Sys2Proof.Machine

/-- Fetch, decode, execute (40_cycle R110 to R114). -/
def stepInstr (s : State) : Host.Outcome State Fault Refusal :=
  match s.fetchDecode with
  | .stopped t => .next t
  | .ready i t => exec i t

/-- One step (40_cycle R110): a faulted or halted machine stays as it is (R110, R116; 92 D8); a machine blocked in a
read lets the environment act and goes on with that read (44_io R173); any other machine performs one instruction. -/
def step (s : State) : Host.Outcome State Fault Refusal :=
  if s.fault.isSome then .next s
  else if !s.active then .next s
  else
    match s.hold with
    | none => stepInstr s
    | some ⟨.fetch, _⟩ => stepInstr s.environmentActs
    | some ⟨.execute i, _⟩ => exec i s.environmentActs

/-- The state whose very next step fetches and runs the instruction with these bits: the machine is awake and the
Word is loaded at PC (30_encoding R91; notes/assumptions/14.md). -/
def State.withFetchWord (s : State) (nbits w : Nat) : State :=
  s.awake.placeAtPc (BitVec.ofNat 16 (w % 2 ^ nbits))

end Sys2Proof.Machine
end

