-- ==== Sys2Proof/Machine/Disassembler.lean ====
section
/-! DEFINITION. The disassembler's text (30_encoding R80, R81), as lists of characters. -/

namespace Sys2Proof.Machine

/-- The upper-case name of a mnemonic (30_encoding R73). -/
def mnemonicText : Mnemonic → List Char
  | .halt => ['H', 'A', 'L', 'T']
  | .load => ['L', 'O', 'A', 'D']
  | .store => ['S', 'T', 'O', 'R', 'E']
  | .add => ['A', 'D', 'D']
  | .sub => ['S', 'U', 'B']
  | .and => ['A', 'N', 'D']
  | .or => ['O', 'R']
  | .xor => ['X', 'O', 'R']
  | .not => ['N', 'O', 'T']
  | .shl => ['S', 'H', 'L']
  | .shr => ['S', 'H', 'R']
  | .bra => ['B', 'R', 'A']
  | .brp => ['B', 'R', 'P']
  | .brz => ['B', 'R', 'Z']
  | .inp => ['I', 'N', 'P']
  | .out => ['O', 'U', 'T']

/-- One upper-case hexadecimal digit. -/
def hexDigit (d : BitVec 4) : Char := if d.toNat < 10 then Char.ofNat (48 + d.toNat) else Char.ofNat (55 + d.toNat)

/-- Exactly three upper-case hexadecimal digits (30_encoding R80 `hex3`). -/
def hex3 (x : Operand) : List Char :=
  [hexDigit (x.extractLsb' 8 4), hexDigit (x.extractLsb' 4 4), hexDigit (x.extractLsb' 0 4)]

/-- The text of an instruction: the mnemonic, one space, `0x` and three digits, ignored operands too, no symbols
(30_encoding R80, R81; 92 D9). -/
def instrText (i : Instr) : List Char := mnemonicText i.mnemonic ++ [' ', '0', 'x'] ++ hex3 i.operand

/-- The disassembler (30_encoding R80); none for a Word whose opcode a partial map has no row for. -/
def disassemble (m : OpcodeMap) (w : Word) : Option (List Char) :=
  match decode m w with
  | .instr i => some (instrText i)
  | .illegalOpcode _ => none

end Sys2Proof.Machine
end

