-- ==== Sys2Proof/Machine/Assembler.lean ====
section
/-! DEFINITION. The assembler (30_encoding R83 to R92), the toolchain's and not the hardware's: from source text to
(address, word) pairs, and the text of the assembled-program file. Text is a list of characters. -/

namespace Sys2Proof.Machine

/-- A token of a line. -/
abbrev Token := List Char

/-- Why an assembly fails. The first three are the source's (30_encoding R92), the others the refusals of 92 D11, D17,
D19 and D21. DESIGN CHOICE: the spec gives UndefinedSymbol no recorded information ("none specified", 60_exceptions
R180; 91 N13) and the refusals no names; the model records the symbol's name, and the token, name or number a refusal
is about (notes/assumptions/24.md). -/
inductive AsmError where
  | encodingOverflow
  | undefinedSymbol (name : Token)
  | illegalOrigin
  | unknownToken (t : Token)
  | unknownDirective (t : Token)
  | duplicateLabel (name : Token)
  | negativeLiteral (t : Token)
  | malformedHex (t : Token)
  | addressTooHigh (address : Nat)
  | operandTooWide (operand : Nat)
  deriving DecidableEq, Repr

/-! ### Lines and tokens (30_encoding R83) -/

/-- The pieces between the characters that separate. -/
def pieces (separates : Char → Bool) : List Char → List (List Char)
  | [] => [[]]
  | c :: cs =>
    if separates c then [] :: pieces separates cs
    else
      match pieces separates cs with
      | [] => [[c]]
      | p :: ps => (c :: p) :: ps

/-- The lines of a source text. -/
def textLines (text : List Char) : List (List Char) := pieces (fun c => c == '\n') text

/-- The tokens of a line: lower-cased, split on whitespace (30_encoding R83). -/
def lineTokens (line : List Char) : List Token :=
  (pieces Char.isWhitespace (line.map Char.toLower)).filter fun t => !t.isEmpty

/-! ### Literals (30_encoding R86) -/

/-- A decimal digit's value. -/
def decimalDigit (c : Char) : Option Nat := if c.isDigit then some (c.toNat - 48) else none

/-- A lower-case hexadecimal digit's value. -/
def lowerHexDigit (c : Char) : Option Nat :=
  if c.isDigit then some (c.toNat - 48)
  else if decide ('a'.toNat ≤ c.toNat) && decide (c.toNat ≤ 'f'.toNat) then some (c.toNat - 87)
  else none

/-- The value of digits read after a value, in a base. -/
def digitsFrom (base : Nat) (digit : Char → Option Nat) : Nat → List Char → Option Nat
  | n, [] => some n
  | n, c :: cs =>
    match digit c with
    | some d => digitsFrom base digit (n * base + d) cs
    | none => none

/-- The value of at least one digit. -/
def digitsValue (base : Nat) (digit : Char → Option Nat) : List Char → Option Nat
  | [] => none
  | c :: cs => digitsFrom base digit 0 (c :: cs)

/-- A decimal literal `[0-9]+` or a hex literal `0x` and hex digits (30_encoding R86). -/
def integerLiteral : Token → Option Nat
  | '0' :: 'x' :: digits => digitsValue 16 lowerHexDigit digits
  | t => digitsValue 10 decimalDigit t

/-- The token starts with a comment mark and is not exactly `#`: it is no comment and is refused (30_encoding R84;
90 C5; 92 D11). -/
def gluedMark : Token → Bool
  | '#' :: _ :: _ => true
  | _ => false

/-- A raw operand: a value, or a symbol left to the fixup pass (30_encoding R86). -/
inductive RawOperand where
  | value (n : Nat)
  | symbol (name : Token)
  deriving DecidableEq, Repr

/-- An operand token (30_encoding R86): a literal; refused where it is a negative literal, malformed hex or a glued
comment mark (92 D11; 90 C5); else a symbol name. DEDUCED: D11 and C5 refuse a glued mark such as `#note` in operand
position too, although R86 says "any other token" of a symbol name (notes/assumptions/15.md). -/
def operandToken (t : Token) : Except AsmError RawOperand :=
  match integerLiteral t with
  | some n => .ok (.value n)
  | none =>
    if gluedMark t then .error (.unknownToken t)
    else
      match t with
      | '0' :: 'x' :: _ => .error (.malformedHex t)
      | '-' :: c :: _ => if c.isDigit then .error (.negativeLiteral t) else .ok (.symbol t)
      | _ => .ok (.symbol t)

/-! ### Tokens of a line (30_encoding R84 to R88) -/

/-- A pending record: address, opcode, raw operand (30_encoding R86). -/
structure PendingRecord where
  address : Nat
  opcode : Opcode
  operand : RawOperand
  deriving DecidableEq, Repr

/-- The assembler between two tokens: the address counter, the symbols declared so far, the pending records in source
order. -/
structure AsmState where
  counter : Nat
  symbols : List (Token × Nat)
  pending : List PendingRecord
  deriving DecidableEq, Repr

/-- The opcode of a mnemonic token: one of the 16 names, with a row in the shared map (30_encoding R73, R84). -/
def mnemonicToken (m : OpcodeMap) (t : Token) : Option Opcode :=
  (Mnemonic.all.find? fun mn => (mnemonicText mn).map Char.toLower == t).bind m.opcodeOf

/-- The value a symbol is bound to. -/
def lookupSymbol (symbols : List (Token × Nat)) (name : Token) : Option Nat :=
  (symbols.find? fun b => b.1 == name).map Prod.snd

/-- An instruction: the record is placed and the counter advances by one; above 0xFFF it is refused
(30_encoding R86, R88; 92 D21). -/
def emit (st : AsmState) (op : Opcode) (x : RawOperand) : Except AsmError AsmState :=
  if st.counter ≤ 0xFFF then
    .ok { st with counter := st.counter + 1, pending := st.pending ++ [⟨st.counter, op, x⟩] }
  else .error (.addressTooHigh st.counter)

/-- A label: the name is bound to the counter and takes no slot; a second declaration is refused
(30_encoding R85; 92 D17). -/
def declareLabel (st : AsmState) (name : Token) : Except AsmError AsmState :=
  match lookupSymbol st.symbols name with
  | some _ => .error (.duplicateLabel name)
  | none => .ok { st with symbols := st.symbols ++ [(name, st.counter)] }

/-- The classes of a token that is no operand, tested in the order of 30_encoding R84. -/
inductive TokenClass where
  | label (name : Token)
  | comment
  | directive
  | instruction (op : Opcode)
  | unknown
  deriving DecidableEq, Repr

/-- 30_encoding R84: a token that starts with `#` and is not exactly `#` is refused, whatever it ends with (the rule's last
sentence; 90 C5; 92 D11); any other is classified by the first test it passes. -/
def classify (m : OpcodeMap) (t : Token) : TokenClass :=
  if gluedMark t then .unknown
  else if t.getLast? = some ':' then .label t.dropLast
  else if t = ['#'] then .comment
  else if t.getLast? = some '.' then .directive
  else
    match mnemonicToken m t with
    | some op => .instruction op
    | none => .unknown

/-- The tokens of one line, left to right (30_encoding R83 to R88). -/
def assembleTokens (m : OpcodeMap) : AsmState → List Token → Except AsmError AsmState
  | st, [] => .ok st
  | st, t :: rest =>
    match classify m t with
    | .label name =>
      match declareLabel st name with
      | .ok st' => assembleTokens m st' rest
      | .error e => .error e
    | .comment => .ok st
    | .unknown => .error (.unknownToken t)
    | .directive =>
      if t = ['o', 'r', 'g', '.'] then
        match rest with
        | [] => .error .illegalOrigin
        | a :: rest' =>
          match integerLiteral a with
          | some n => assembleTokens m { st with counter := n } rest'
          | none => .error .illegalOrigin
      else .error (.unknownDirective t)
    | .instruction op =>
      match rest with
      | [] => emit st op (.value 0)
      | x :: rest' =>
        if x = ['#'] then emit st op (.value 0)
        else
          match operandToken x with
          | .error e => .error e
          | .ok operand =>
            match emit st op operand with
            | .ok st' => assembleTokens m st' rest'
            | .error e => .error e

/-- The lines of a source text, in order. -/
def assembleLines (m : OpcodeMap) : AsmState → List (List Char) → Except AsmError AsmState
  | st, [] => .ok st
  | st, line :: rest =>
    match assembleTokens m st (lineTokens line) with
    | .ok st' => assembleLines m st' rest
    | .error e => .error e

/-! ### The fixup pass (30_encoding R89) -/

/-- A raw operand's value: symbols are looked up in the complete table. -/
def resolve (symbols : List (Token × Nat)) : RawOperand → Except AsmError Nat
  | .value n => .ok n
  | .symbol name =>
    match lookupSymbol symbols name with
    | some n => .ok n
    | none => .error (.undefinedSymbol name)

/-- One pending record packed (30_encoding R77, R89). -/
def fixup (symbols : List (Token × Nat)) (r : PendingRecord) : Except AsmError (Nat × Word) :=
  match resolve symbols r.operand with
  | .error e => .error e
  | .ok n =>
    match packPair r.opcode n with
    | .ok w => .ok (r.address, w)
    | .error .encodingOverflow => .error .encodingOverflow
    | .error .operandTooWide => .error (.operandTooWide n)

/-- The records in order; the first error ends it, and nothing is output (30_encoding R89). -/
def fixupAll (symbols : List (Token × Nat)) : List PendingRecord → Except AsmError (List (Nat × Word))
  | [] => .ok []
  | r :: rs =>
    match fixup symbols r with
    | .error e => .error e
    | .ok line =>
      match fixupAll symbols rs with
      | .error e => .error e
      | .ok lines => .ok (line :: lines)

/-- The assembler from an address counter. -/
def assembleAt (m : OpcodeMap) (start : Nat) (text : List Char) : Except AsmError (List (Nat × Word)) :=
  match assembleLines m ⟨start, [], []⟩ (textLines text) with
  | .error e => .error e
  | .ok st => fixupAll st.symbols st.pending

/-- The assembler: the address counter starts at 0 (30_encoding R88; 92 D28). -/
def assemble (m : OpcodeMap) (text : List Char) : Except AsmError (List (Nat × Word)) := assembleAt m 0 text

/-! ### The assembled-program file (30_encoding R91) -/

/-- One line `<decimal address> <decimal encoded word>`. -/
def programLine (line : Nat × Word) : List Char :=
  Nat.toDigits 10 line.1 ++ [' '] ++ Nat.toDigits 10 line.2.toNat

/-- The file: newline-separated lines. -/
def programText : List (Nat × Word) → List Char
  | [] => []
  | [line] => programLine line
  | line :: rest => programLine line ++ ['\n'] ++ programText rest

end Sys2Proof.Machine
end

