-- ==== Sys2Proof/Machine/Run.lean ====
section
/-! DEFINITION. Around the step: reset of the CPU, the setting up of a run, `run()`, where a state stands, and
the four ways a run ends (40_cycle R115; 70_reset R200 to R202, R207). -/

namespace Sys2Proof.Machine

/-- CPU reset: the CPU's state of 10_state R33; device storage, the device list and the parameters stay
(70_reset R200, R201). -/
def State.resetCpu (s : State) : State :=
  { State.reset with devices := s.devices, params := s.params, arrivals := s.arrivals }

/-- `register_device(d)`, at setup (20_memory R43; 70_reset R202 item 2). -/
def State.registerDevice (d : Device) (s : State) : State := { s with devices := Bus.register d s.devices }

/-- The loader: one bus write per (address, word) pair, in order (30_encoding R91; 70_reset R202 item 3). -/
def State.loadProgram (program : List (Nat × Word)) (s : State) : State :=
  program.foldl (fun t line => t.loadWord line.1 line.2) s

/-- Setting up a run (70_reset R202): an empty bus, the devices registered in order, the program loaded, the CPU
reset. -/
def State.boot (params : Params) (devices : List Device) (program : List (Nat × Word)) : State :=
  State.resetCpu (State.loadProgram program
    (devices.foldl (fun (s : State) d => s.registerDevice d) { State.reset with devices := [], params := params }))

/-- The test of `run()`'s loop: active and not faulted (40_cycle R115). -/
def State.running (s : State) : Bool := s.active && s.fault.isNone

/-- At most `n` rounds of `run()`'s loop, the test before each step (40_cycle R115; 92 D22). -/
def runFor : Nat → State → Host.Outcome State Fault Refusal
  | 0, s => .next s
  | n + 1, s =>
    if s.running then
      match step s with
      | .next t => runFor n t
      | .fault r => .fault r
      | .refused r => .refused r
    else .next s

/-- Where one state stands: stopped by a fatal condition or by HALT (70_reset R207), waiting in a read that has not
returned yet, or between two instructions. -/
inductive RunStatus where
  | halted
  | faulted
  | waiting
  | going
  deriving DecidableEq, Repr

/-- Faulted, else halted, else waiting in a read, else going. -/
def State.status (s : State) : RunStatus :=
  if s.fault.isSome then .faulted
  else if !s.active then .halted
  else if s.hold.isSome then .waiting
  else .going

/-- The four ways a run ends (70_reset R207). -/
inductive RunEnd where
  | halted
  | faulted
  | blocked
  | diverging
  deriving DecidableEq, Repr

/-- The run from `s` ends in this way (70_reset R207). Halted and Faulted: some round of `run()` comes to such a state.
Blocked: from some round on the machine waits in one and the same read, whose device never returns; the rule speaks of
an INP read, and a fetch or a data read is held alike (notes/assumptions/8.md). Diverging: the machine never halts or
faults, and completes instructions without end, momentary waits between them included. -/
def State.runEnds (s : State) : RunEnd → Prop
  | .halted => ∃ n t, runFor n s = .next t ∧ t.status = .halted
  | .faulted => ∃ n t, runFor n s = .next t ∧ t.status = .faulted
  | .blocked => ∃ n h, ∀ m, n ≤ m → ∃ t, runFor m s = .next t ∧ t.status = .waiting ∧ t.hold = some h
  | .diverging =>
    (∀ m, ∃ t, runFor m s = .next t ∧ t.running = true) ∧
    ∀ n, ∃ m t, n ≤ m ∧ runFor m s = .next t ∧ t.status = .going

end Sys2Proof.Machine
end

