-- ==== Sys2Proof/Safety.lean ====
section
/-! DEFINITION. What a well-formed state is, and what a safe run is, in the terms the statements use. -/

namespace Sys2Proof.Machine

/-- The cells a device holds; none for a device that is no storage. -/
def Device.cells (d : Device) : Memory :=
  match d.kind with
  | .storage cells => cells
  | _ => []

/-- A device's storage is in canonical form. -/
abbrev Device.wf (d : Device) : Prop := Memory.wf d.cells

/-- Both flags are those of ACC (10_state R26). -/
abbrev State.flagsMatch (s : State) : Prop := s.zero = zeroFlag s.acc ∧ s.positive = positiveFlag s.acc

/-- PC is an address of `ADDR_BITS` bits (10_state R27; 00_scope R5). -/
abbrev State.pcInRange (s : State) : Prop := s.pc < 2 ^ s.params.addrBits

/-- Every device's storage is in canonical form. -/
abbrev State.memoryWf (s : State) : Prop := ∀ d ∈ s.devices, d.wf

/-- The instructions whose execute phase reads the bus, and so can wait in it (20_memory R59). -/
def readsBus : Instr → Bool
  | .load _ | .add _ | .sub _ | .and _ | .or _ | .xor _ | .inp _ => true
  | .halt _ | .store _ | .not _ | .shl _ | .shr _ | .bra _ | .brp _ | .brz _ | .out _ => false

/-- The operand field an instruction reads its data Word by, at the address `State.addressOf` gives it; none for an
instruction that reads no data (20_memory R59; 30_encoding R72). -/
def dataOperand : Instr → Option Operand
  | .load a | .add a | .sub a | .and a | .or a | .xor a => some a
  | .halt _ | .store _ | .not _ | .shl _ | .shr _ | .bra _ | .brp _ | .brz _ | .inp _ | .out _ => none

/-- The ten instructions that write ACC (10_state R20, R23). -/
def writesAcc : Instr → Bool
  | .load _ | .add _ | .sub _ | .and _ | .or _ | .xor _ | .not _ | .shl _ | .shr _ | .inp _ => true
  | .halt _ | .store _ | .bra _ | .brp _ | .brz _ | .out _ => false

/-- The instructions that write PC (10_state R27). -/
def isBranch : Instr → Bool
  | .bra _ | .brp _ | .brz _ => true
  | .halt _ | .load _ | .store _ | .add _ | .sub _ | .and _ | .or _ | .xor _ | .not _ | .shl _ | .shr _ | .inp _
  | .out _ => false

/-- The instructions that write to the bus (20_memory R55, R59). -/
def writesBus : Instr → Bool
  | .store _ | .out _ => true
  | .halt _ | .load _ | .add _ | .sub _ | .and _ | .or _ | .xor _ | .not _ | .shl _ | .shr _ | .bra _ | .brp _
  | .brz _ | .inp _ => false

/-- The state `s` but for a result in ACC with its two flags (10_state R22), the devices after a read, and no read on
hold. -/
def State.accResult (s : State) (v : Word) (devices : List Device) : State :=
  { s with acc := v, zero := v == 0#16, positive := !v.getLsbD 15, devices := devices, hold := none }

/-- A machine on hold is running, and waits in a read: of the fetch, or of an instruction that reads. -/
def State.holdSound (s : State) : Bool :=
  match s.hold with
  | none => true
  | some ⟨.fetch, _⟩ => s.running
  | some ⟨.execute i, _⟩ => s.running && readsBus i

/-- The machine waits inside a port read. -/
def State.inPortRead (s : State) : Bool :=
  match s.hold with
  | some ⟨.execute (.inp _), _⟩ => true
  | _ => false

/-- The io-request flag is set exactly inside a port read on hold; so it is clear at every instruction boundary
(10_state R31). -/
abbrev State.ioSound (s : State) : Prop := s.ioRequest = s.inPortRead

/-- The invariant of the machine. -/
structure State.Inv (s : State) : Prop where
  flags : s.flagsMatch
  pc : s.pcInRange
  io : s.ioSound
  hold : s.holdSound = true
  memory : s.memoryWf

/-- The two states have the same platform: the same devices' predicates in the same order, and the same parameters
(00_scope R11; 20_memory R43). -/
abbrev State.samePlatform (s t : State) : Prop :=
  s.devices.map Device.claims = t.devices.map Device.claims ∧ s.params = t.params

/-- The Word that the storage device at a place of the list holds at an address. -/
def State.cell (s : State) (place addr : Nat) : Option Word := (s.devices[place]?).bind fun d => d.cell addr

/-- Every device that answers this address in this space is plain storage. -/
abbrev State.onlyStorage (s : State) (addr : Nat) (io : Bool) : Prop :=
  ∀ d ∈ s.devices, d.responds (effectiveAddress addr io) io = true → d.isStorage = true

/-- The cell of the last device that answers this address in this space: what a read there gives where only storage
answers (20_memory R45). -/
def State.lastCell (s : State) (addr : Nat) (io : Bool) : Option Word :=
  ((s.devices.filter fun d => d.responds (effectiveAddress addr io) io).getLast?).bind
    fun d => d.cell (effectiveAddress addr io)

/-- A safe state: no fatal condition is recorded (70_reset R207: "a failure; no claim of success may hold there"). -/
def State.safe (s : State) : Bool := s.fault.isNone

end Sys2Proof.Machine
end

