-- ==== Sys2Proof/Certificates/Slice0/Obligations.lean ====
section
/-! DEFINITION. The statements for the provers (OBLIGATIONS.json). Each docstring names what of spec/ it formalises. -/

open Sys2Proof Sys2Proof.Machine

/-- O1. Reset leaves ACC 0, Z and P true, PC 0, active, io_request clear, no fault (the spec's decision D3) and keeps
device storage. State.reset has ACC = 0x0000, Z = P = true, PC = 0x000, active, io_request clear, no fault.
Resetting the CPU of any state gives the same values and leaves the devices and the parameters. The values are the
spec's own decision D3; 'no read on hold' is the model's (log entry 7). Rests on: 10_state.md 6 (reset values,
decision D3); 70_reset_and_hazards.md 1 (reset). -/
def Obligations.ResetLeavesTheseValues : Prop :=
  (State.reset.acc = 0x0000#16 ∧ State.reset.zero = true ∧ State.reset.positive = true ∧ State.reset.pc = 0x000 ∧
    State.reset.active = true ∧ State.reset.ioRequest = false ∧ State.reset.fault = none ∧ State.reset.hold = none) ∧
  ∀ s : State,
    s.resetCpu.acc = 0x0000#16 ∧ s.resetCpu.zero = true ∧ s.resetCpu.positive = true ∧ s.resetCpu.pc = 0x000 ∧
    s.resetCpu.active = true ∧ s.resetCpu.ioRequest = false ∧ s.resetCpu.fault = none ∧ s.resetCpu.hold = none ∧
    s.resetCpu.devices = s.devices ∧ s.resetCpu.params = s.params

/-- O2. The state after reset meets the machine's invariant. State.reset.Inv: the flags are those of ACC, PC is below
2^ADDR_BITS, io_request is set exactly inside a port read on hold, a hold is sound, and every storage device is in
canonical form. Rests on: 10_state.md 3 (R26); 10_state.md 4 (R27); 10_state.md 5 (R31). -/
def Obligations.ResetMeetsTheInvariant : Prop :=
  State.reset.Inv

/-- O3. Every step keeps the invariant: flags match ACC, PC stays in range, io_request is set only inside a held port
read, storage stays canonical. For every state s with Inv s, if step answers next t, then Inv t. Inv: Z = (ACC ==
0) and P = (ACC[15] == 0); PC is below 2^ADDR_BITS; io_request is set exactly while an INP read is on hold, so it
is clear at every instruction boundary; a machine on hold is active, not faulted, and waits in a fetch or in an
instruction that reads; every storage device is in canonical form. Holds are the model's form of R53 (log entry 7).
Rests on: 10_state.md 3 (R26); 10_state.md 4 (R27); 10_state.md 5 (R31); 70_reset_and_hazards.md 5 (R207). -/
def Obligations.StepKeepsTheInvariant : Prop :=
  ∀ s t : State, s.Inv → step s = .next t → t.Inv

/-- O4. A run of any length keeps the invariant, the device predicates and the parameters. For every n and every state
s with Inv s, if at most n rounds of run()'s loop answer next t, then Inv t, and s and t have the same device
predicates in the same order and the same parameters. Rests on: 40_cycle.md 1 (run); 10_state.md 3 (R26);
20_memory.md 2 (R43). -/
def Obligations.RunKeepsInvariantAndPlatform : Prop :=
  ∀ (n : Nat) (s t : State), s.Inv → runFor n s = .next t → t.Inv ∧ s.samePlatform t

/-- O5. No step adds, removes, reorders or re-addresses a device or changes a parameter. If step answers next t from s,
the devices of t have the same address predicates in the same order as those of s, and the parameters (address
width, opcode map, ports, shift direction) are the same. That the platform stands in State is the model's choice
(log entries 2 and 3). Rests on: 20_memory.md 2 (R43); 00_scope.md 5 (R11). -/
def Obligations.StepKeepsThePlatform : Prop :=
  ∀ s t : State, step s = .next t → s.samePlatform t

/-- O6. Every step answers a next state: a fatal condition is recorded in it, never a stop of the model. For every
state, step answers some next state; no state makes it answer a fault or a refusal. A fatal condition is recorded
in the state's fault status (log entry 9). Rests on: 40_cycle.md 3 (R117); 92_eei_decisions.md D8. -/
def Obligations.StepAlwaysAnswersNext : Prop :=
  ∀ s : State, ∃ t, step s = .next t

/-- O7. Writing ACC masks the value to 16 bits and recomputes both flags; no instruction writes the one without the
other. For every integer v, ACC <- v stores v mod 2^16, sets Z to (ACC == 0) and P to (ACC[15] == 0), and changes
nothing else. For every instruction i that does not write ACC, exec leaves ACC and both flags; for every
instruction that does, exec leaves all three or answers a state whose flags are those of its ACC. Rests on: R22. -/
def Obligations.AccWriteRecomputesFlags : Prop :=
  (∀ (s : State) (v : Int),
    ((s.writeAcc v).acc.toNat : Int) = v % 65536 ∧
    ((s.writeAcc v).zero = true ↔ (s.writeAcc v).acc = 0#16) ∧
    ((s.writeAcc v).positive = true ↔ (s.writeAcc v).acc.getLsbD 15 = false) ∧
    s.writeAcc v = { s with
      acc := (s.writeAcc v).acc, zero := (s.writeAcc v).zero, positive := (s.writeAcc v).positive }) ∧
  ∀ (i : Instr) (s t : State), exec i s = .next t →
    (t.acc = s.acc ∧ t.zero = s.zero ∧ t.positive = s.positive) ∨
    (writesAcc i = true ∧ (t.zero = true ↔ t.acc = 0#16) ∧ (t.positive = true ↔ t.acc.getLsbD 15 = false))

/-- O8. Only BRZ reads Z and only BRP reads P: any other instruction runs alike whatever that flag holds. For every
instruction other than BRZ, running it from two states that differ only in Z gives two states that are equal or
differ only in Z in the same way; likewise for every instruction other than BRP and P. Rests on: 10_state.md 3
(R23, R24). -/
def Obligations.EachFlagHasOneReader : Prop :=
  ∀ (i : Instr) (s t : State) (b : Bool), exec i s = .next t →
    ((∀ x, i ≠ .brz x) → ∃ u, exec i { s with zero := b } = .next u ∧ (u = t ∨ u = { t with zero := b })) ∧
    ((∀ x, i ≠ .brp x) → ∃ u, exec i { s with positive := b } = .next u ∧ (u = t ∨ u = { t with positive := b }))

/-- O9. HALT clears the run flag, no instruction sets it, only reset does, and a halted machine's step and run do
nothing. HALT answers a state with active false. If exec answers next t with t active, s was active; if s was
active and t is not, the instruction is HALT. A whole step sets it no more than an instruction does. CPU reset sets
active. While active is false, step and run() answer the same state. Rests on: R29. -/
def Obligations.ActiveIsClearedOnlyByHalt : Prop :=
  (∀ (x : Operand) (s : State), ∃ t, exec (.halt x) s = .next t ∧ t.active = false) ∧
  (∀ (i : Instr) (s t : State), exec i s = .next t → t.active = true → s.active = true) ∧
  (∀ (i : Instr) (s t : State), exec i s = .next t → s.active = true → t.active = false → ∃ x, i = .halt x) ∧
  (∀ s t : State, step s = .next t → t.active = true → s.active = true) ∧
  (∀ s : State, s.resetCpu.active = true) ∧
  ∀ s : State, s.active = false → step s = .next s ∧ ∀ n, runFor n s = .next s

/-- O10. In execute, no instruction but BRA, BRP and BRZ changes PC, and these change nothing else. If exec answers
next t from s, then the instruction is a branch and t is s but for PC, which is the address of the operand or
unchanged, or t has the PC of s. The address of an operand field is its value at the width ADDR_BITS
(State.addressOf; log entry 12). Rests on: 10_state.md 4 (R27). -/
def Obligations.OnlyBranchesWritePc : Prop :=
  ∀ (i : Instr) (s t : State), exec i s = .next t →
    (isBranch i = true ∧ t = { s with pc := t.pc } ∧ (t.pc = s.addressOf i.operand ∨ t.pc = s.pc)) ∨
    (isBranch i = false ∧ t.pc = s.pc)

/-- O11. With io-request set every device sees the low 8 bits of the address; with it clear, the address as issued. The
effective address is addr mod 256 with io set and addr with io clear. For every list of devices and the device d at
any place k of it, that address is what d's should_respond is asked with and what its read and its write are given.
A write: d at place k becomes d written at the effective address if it responds there, and stays if not. A read: d
stays if it does not respond; if it responds, and no device before it blocks, it becomes d after a read of the
effective address, the bus is held at k if that read blocks, and where no later device responds the bus answers
what that read answers, NoData for null whatever came before. The hold is the model's form of a blocked read (log
entry 7); that null gives NoData is the spec's decision D13. Rests on: 20_memory.md 2 (R44, R45);
92_eei_decisions.md D13. -/
def Obligations.PortAddressesAreNarrowed : Prop :=
  (∀ a : Nat, effectiveAddress a true = a % 256 ∧ effectiveAddress a false = a) ∧
  ∀ (a : Nat) (io : Bool) (v : Word) (ds : List Device) (k : Nat) (d : Device), ds[k]? = some d →
    (Bus.write a io v ds)[k]? = some (if d.responds (effectiveAddress a io) io = true then
      d.withKind (d.kind.write (effectiveAddress a io) v) else d) ∧
    (d.responds (effectiveAddress a io) io = false → (Bus.read a io ds).2[k]? = some d) ∧
    (d.responds (effectiveAddress a io) io = true → ∀ u, (Bus.read a io (ds.take k)).1 = .answered u →
      (Bus.read a io ds).2[k]? = some (d.withKind (d.kind.read (effectiveAddress a io)).2) ∧
      ((d.kind.read (effectiveAddress a io)).1 = .hold → (Bus.read a io ds).1 = .held k) ∧
      ((∀ e ∈ ds.drop (k + 1), e.responds (effectiveAddress a io) io = false) →
        (∀ w, (d.kind.read (effectiveAddress a io)).1 = .word w → (Bus.read a io ds).1 = .answered (some w)) ∧
        ((d.kind.read (effectiveAddress a io)).1 = .null → (Bus.read a io ds).1 = .answered none)))

/-- O12. A bus write writes every matching device, in place, and no other; with no match it has no effect. For every
address, mode, Word and device list: the device at place k after the write is the device at place k before it,
written at the effective address if its predicate matches there and unchanged if not; where no device matches, the
list is unchanged. Rests on: R46. -/
def Obligations.BusWriteReachesEveryMatch : Prop :=
  ∀ (a : Nat) (io : Bool) (v : Word) (ds : List Device),
    (∀ k : Nat, (Bus.write a io v ds)[k]? = (ds[k]?).map fun d =>
      if d.responds (effectiveAddress a io) io then d.withKind (d.kind.write (effectiveAddress a io) v) else d) ∧
    ((∀ d ∈ ds, d.responds (effectiveAddress a io) io = false) → Bus.write a io v ds = ds)

/-- O13. A bus read visits the devices in order, reads every match, and gives the last match's answer, null too. On no
device a read gives NoData. On a list with one more device d at its end: if the read of the list before d is held,
the whole is held there and d is not reached; else, if d does not match, the answer is that of the list before; if
d matches, d is read and its answer replaces it: its Word, or NoData for null, or a hold at d. That null replaces
an earlier Word is the spec's decision D13; the hold is the model's form of R53 (log entry 7). Rests on:
20_memory.md 2 (R45); 92_eei_decisions.md D13, D25. -/
def Obligations.BusReadLastMatchWins : Prop :=
  ∀ (a : Nat) (io : Bool),
    Bus.read a io [] = (.answered none, []) ∧
    ∀ (ds es : List Device) (d : Device),
      (∀ k, Bus.read a io ds = (.held k, es) → Bus.read a io (ds ++ [d]) = (.held k, es ++ [d])) ∧
      ∀ v, Bus.read a io ds = (.answered v, es) →
        (d.responds (effectiveAddress a io) io = false → Bus.read a io (ds ++ [d]) = (.answered v, es ++ [d])) ∧
        (d.responds (effectiveAddress a io) io = true →
          (∀ w k, d.kind.read (effectiveAddress a io) = (.word w, k) →
            Bus.read a io (ds ++ [d]) = (.answered (some w), es ++ [d.withKind k])) ∧
          (∀ k, d.kind.read (effectiveAddress a io) = (.null, k) →
            Bus.read a io (ds ++ [d]) = (.answered none, es ++ [d.withKind k])) ∧
          ∀ k, d.kind.read (effectiveAddress a io) = (.hold, k) →
            Bus.read a io (ds ++ [d]) = (.held ds.length, es ++ [d.withKind k]))

/-- O14. Where only storage answers an address, a bus read gives the last matching device's cell and changes nothing.
From a state with no read on hold, if every device that answers the address in the current mode is storage, then a
bus read answers the Word in the cell of the last such device (NoData if there is none), and the state is
unchanged. Rests on: 20_memory.md 2 (R45); 20_memory.md 3 (R50). -/
def Obligations.StorageReadGivesTheLastCell : Prop :=
  ∀ (s : State) (a : Nat), s.hold = none → s.onlyStorage a s.ioRequest →
    s.busRead a = (.answered (s.lastCell a s.ioRequest), s)

/-- O15. LOAD puts the Word read at its operand in ACC with both flags, and changes nothing else. For every state s and
operand a at whose address the bus read answers the Word m and leaves the state t: exec of LOAD a answers s with
ACC = m, Z = (m == 0), P = (m[15] == 0), and the devices as the read leaves them. Every storage cell of every
device reads as before. The address of a is its value at the width ADDR_BITS (State.addressOf; log entry 12). Rests
on: 41_load_store.md R130 (pseudocode, flags); 10_state.md 2 (R22). -/
def Obligations.LoadPutsTheWordInAcc : Prop :=
  ∀ (s t : State) (a : Operand) (m : Word), s.busRead (s.addressOf a) = (.answered (some m), t) →
    exec (.load a) s = .next (s.accResult m t.devices) ∧ ∀ k b, t.cell k b = s.cell k b

/-- O16. STORE writes ACC to every device that answers its operand address, and changes nothing else. For every state s
with io_request clear and canonical storage, and every operand a: exec of STORE a answers a state t that is s but
for the devices; each device keeps its place and its predicate; one that does not answer the address of a is
unchanged, one that does is written ACC there; a storage device among these then holds ACC there, and every cell at
any other address is as before. The address of a is its value at the width ADDR_BITS (State.addressOf; log entry
12). Rests on: 41_load_store.md R131 (pseudocode, flags, corner cases); 20_memory.md 2 (R46). -/
def Obligations.StoreWritesEveryMatchingDevice : Prop :=
  ∀ (s : State) (a : Operand), s.ioRequest = false → s.memoryWf →
    ∃ t, exec (.store a) s = .next t ∧ t = { s with devices := t.devices } ∧
      t.devices.length = s.devices.length ∧
      ∀ (k : Nat) (d : Device), s.devices[k]? = some d → ∃ e, t.devices[k]? = some e ∧ e.claims = d.claims ∧
        (d.responds (s.addressOf a) false = false → e = d) ∧
        (d.responds (s.addressOf a) false = true → e = d.withKind (d.kind.write (s.addressOf a) s.acc)) ∧
        (d.responds (s.addressOf a) false = true → d.isStorage = true → e.cell (s.addressOf a) = some s.acc) ∧
        ∀ b, b ≠ s.addressOf a → e.cell b = d.cell b

/-- O17. ADD gives ACC + m and SUB gives ACC - m modulo 2^16, with Z and P of the result, and change nothing else. For
every state s and operand a at whose address the bus read answers m and leaves t: ADD a answers s with ACC + m, SUB
a with ACC - m (both modulo 2^16), Z and P of the result, and the devices as the read leaves them. Every storage
cell reads as before. The address of a is its value at the width ADDR_BITS (State.addressOf; log entry 12). Rests
on: 42_alu.md R141, R142 (pseudocode, flags); 42_alu.md R149. -/
def Obligations.AddAndSubResults : Prop :=
  ∀ (s t : State) (a : Operand) (m : Word), s.busRead (s.addressOf a) = (.answered (some m), t) →
    exec (.add a) s = .next (s.accResult (s.acc + m) t.devices) ∧
    exec (.sub a) s = .next (s.accResult (s.acc - m) t.devices) ∧
    (s.acc + m).toNat = (s.acc.toNat + m.toNat) % 65536 ∧
    ((s.acc - m).toNat : Int) = ((s.acc.toNat : Int) - m.toNat) % 65536 ∧
    ∀ k b, t.cell k b = s.cell k b

/-- O18. AND, OR and XOR combine ACC and the memory Word bit by bit, with Z and P of the result, and change nothing
else. For every state s and operand a at whose address the bus read answers m and leaves t: AND a, OR a and XOR a
answer s with ACC & m, ACC | m and ACC ^ m, Z and P of the result, and the devices as the read leaves them. Every
storage cell reads as before. The address of a is its value at the width ADDR_BITS (State.addressOf; log entry 12).
Rests on: 42_alu.md R143, R144, R145 (pseudocode, flags). -/
def Obligations.LogicResults : Prop :=
  ∀ (s t : State) (a : Operand) (m : Word), s.busRead (s.addressOf a) = (.answered (some m), t) →
    exec (.and a) s = .next (s.accResult (s.acc &&& m) t.devices) ∧
    exec (.or a) s = .next (s.accResult (s.acc ||| m) t.devices) ∧
    exec (.xor a) s = .next (s.accResult (s.acc ^^^ m) t.devices) ∧
    ∀ k b, t.cell k b = s.cell k b

/-- O19. NOT complements ACC; SHL and SHR shift it by one with zero fill, in the directions of the spec's decision D7.
For every state and operand field: NOT answers s with ~ACC; SHL with ACC << 1 and SHR with the logical ACC >> 1
where SHIFT_SWAPPED is false, the value 92 D7 gives, and the other way round where it is true; Z and P are those of
the result, P is true after a right shift, and nothing else changes, the devices included. Rests on: 42_alu.md
R146, R147, R148 (pseudocode, flags); 92_eei_decisions.md D7. -/
def Obligations.NotAndShiftResults : Prop :=
  ∀ (s : State) (x : Operand),
    exec (.not x) s = .next { s.accResult (~~~s.acc) s.devices with hold := s.hold } ∧
    (s.params.shiftSwapped = false →
      exec (.shl x) s = .next { s.accResult (s.acc <<< 1) s.devices with hold := s.hold } ∧
      exec (.shr x) s = .next { s.accResult (s.acc >>> 1) s.devices with hold := s.hold }) ∧
    (s.params.shiftSwapped = true →
      exec (.shl x) s = .next { s.accResult (s.acc >>> 1) s.devices with hold := s.hold } ∧
      exec (.shr x) s = .next { s.accResult (s.acc <<< 1) s.devices with hold := s.hold }) ∧
    (s.acc >>> 1).getLsbD 15 = false ∧ (s.acc <<< 1).getLsbD 0 = false

/-- O20. A data read that gets no data faults with NoData(data, operand); ACC, the flags and PC are unchanged (decision
D5). For every one of LOAD, ADD, SUB, AND, OR, XOR with operand a, and every state s at which the bus read of the
address of a answers NoData and leaves t: exec answers s with fault = NoData(data, that address) and the devices as
the read leaves them; nothing else changes. That NoData is fatal is the spec's decision D5. The address of a is its
value at the width ADDR_BITS (State.addressOf; log entry 12). Rests on: 60_exceptions.md 1 (R182, Data); 42_alu.md
R140; 92_eei_decisions.md D5. -/
def Obligations.MemoryOperandNoDataIsFatal : Prop :=
  ∀ (s t : State) (i : Instr) (a : Operand), dataOperand i = some a → s.busRead (s.addressOf a) = (.answered none, t) →
    exec i s = .next { s with fault := some (.noData .data (s.addressOf a)), devices := t.devices, hold := none } ∧
    ∀ k b, t.cell k b = s.cell k b

/-- O21. A data read whose device blocks suspends the instruction and writes nothing (log entries 7 and 8). For every
one of LOAD, ADD, SUB, AND, OR, XOR with operand a, and every state s at which the bus read of the address of a is
held by the device at place k and leaves t: exec answers s with the hold recorded and the devices as far as they
were read; ACC, the flags, PC and every storage cell are unchanged. The form of a hold is the model's choice (log
entry 7). The address of a is its value at the width ADDR_BITS (State.addressOf; log entry 12). Rests on:
20_memory.md 3 (R53); 40_cycle.md 1 (R110). -/
def Obligations.MemoryOperandReadCanHold : Prop :=
  ∀ (s t : State) (i : Instr) (a : Operand) (k : Nat), dataOperand i = some a → s.busRead (s.addressOf a) = (.held k, t) →
    exec i s = .next { s with devices := t.devices, hold := some ⟨.execute i, k⟩ } ∧
    ∀ j b, t.cell j b = s.cell j b

/-- O22. BRA writes its operand to PC, BRP does so if P is set and BRZ if Z is set; nothing else changes. For every
state and operand a: BRA a answers s with PC = the address of a; BRP a answers s with PC = that address if P is
true and s itself if not; BRZ a likewise with Z. The address of a is its value at the width ADDR_BITS
(State.addressOf; log entry 12). Rests on: 43_branch.md R160, R161, R162 (pseudocode, flags). -/
def Obligations.BranchResults : Prop :=
  ∀ (s : State) (a : Operand),
    exec (.bra a) s = .next { s with pc := s.addressOf a } ∧
    exec (.brp a) s = .next { s with pc := if s.positive = true then s.addressOf a else s.pc } ∧
    exec (.brz a) s = .next { s with pc := if s.zero = true then s.addressOf a else s.pc }

/-- O23. Where the flags match ACC, BRP is taken iff ACC is below 0x8000, zero included, and BRZ iff ACC is zero. For
every state whose flags are those of its ACC (the invariant StepKeepsTheInvariant keeps): BRP a goes to the address
of a iff ACC < 0x8000, and BRZ a iff ACC = 0. The address of a is its value at the width ADDR_BITS
(State.addressOf; log entry 12). Rests on: 43_branch.md R164; 10_state.md 3 (R24, R26). -/
def Obligations.BranchesTestAcc : Prop :=
  ∀ (s : State) (a : Operand), s.flagsMatch →
    exec (.brp a) s = .next { s with pc := if s.acc.toNat < 0x8000 then s.addressOf a else s.pc } ∧
    exec (.brz a) s = .next { s with pc := if s.acc.toNat = 0 then s.addressOf a else s.pc }

/-- O24. HALT clears active and changes nothing else. For every state and operand field, exec of HALT answers s with
active false; ACC, the flags, PC and the devices are unchanged. Rests on: 40_cycle.md 2 (R116 pseudocode, flags). -/
def Obligations.HaltResult : Prop :=
  ∀ (s : State) (x : Operand), exec (.halt x) s = .next { s with active := false }

/-- O25. INP reads the fixed input port with io-request set and puts the low byte in ACC; the flag is clear afterwards.
For every state s and operand field: if the bus read of IN_PORT with io_request set answers the Word v and leaves
t, exec of INP answers s with ACC = v mod 256, Z and P of it (P true), io_request clear, and the devices as the
read leaves them; every storage cell reads as before. The width is the spec's decision D6. Rests on: 44_io.md R170
(pseudocode, flags); 44_io.md R172; 92_eei_decisions.md D6. -/
def Obligations.InpPutsTheByteInAcc : Prop :=
  ∀ (s t : State) (x : Operand) (v : Word),
    s.setIoRequest.busRead s.params.inPort.toNat = (.answered (some v), t) →
    exec (.inp x) s = .next { s.accResult (lowByte v) t.devices with ioRequest := false } ∧
    (lowByte v).toNat = v.toNat % 256 ∧ (lowByte v).getLsbD 15 = false ∧ ∀ k b, t.cell k b = s.cell k b

/-- O26. An INP that gets no data clears io_request and faults with NoData(port, IN_PORT); ACC and the flags are
unchanged. For every state s and operand field: if the bus read of IN_PORT with io_request set answers NoData and
leaves t, exec of INP answers s with fault = NoData(port, IN_PORT), io_request clear, and the devices as the read
leaves them; nothing else changes. Decisions D5 and D15 of the spec. Rests on: 60_exceptions.md 1 (R182, Port);
44_io.md R172; 92_eei_decisions.md D5, D15. -/
def Obligations.InpNoDataIsFatal : Prop :=
  ∀ (s t : State) (x : Operand), s.setIoRequest.busRead s.params.inPort.toNat = (.answered none, t) →
    exec (.inp x) s = .next { s with
      fault := some (.noData .port s.params.inPort.toNat), ioRequest := false, devices := t.devices, hold := none }

/-- O27. An INP whose device has no input holds: ACC, flags and PC stay, and the read waits with io_request set (log
entry 7). For every state s and operand field: if the bus read of IN_PORT with io_request set is held at place k
and leaves t, exec of INP answers s with the hold recorded, io_request set, and the devices as far as they were
read. The form of a hold is the model's choice (log entry 7). Rests on: 44_io.md R173; 20_memory.md 3 (R53);
92_eei_decisions.md D24. -/
def Obligations.InpHolds : Prop :=
  ∀ (s t : State) (x : Operand) (k : Nat), s.setIoRequest.busRead s.params.inPort.toNat = (.held k, t) →
    exec (.inp x) s = .next { s with
      ioRequest := true, devices := t.devices, hold := some ⟨.execute (.inp 0#12), k⟩ }

/-- O28. On the reference platform INP consumes the console's next input byte, and holds while there is none (log
entries 7 and 23). For every state with a RAM of any size and contents followed by the console of D12, no read on
hold, and the console's input port as IN_PORT: with input b, rest, INP answers ACC = b with its flags and the
console left with rest; with no input, INP answers a hold at the console and changes nothing else but the
io_request flag, which stays set. The record of the hold and the flag that stays set are the model's choice (log
entry 7), and so is the operand field 0x000 in the record (log entry 23). Where the console's output port is the
same port as IN_PORT, of which D12 says both that a read gives the next byte and that it gives null, the model's
choice is the byte (log entry 19). Rests on: 92_eei_decisions.md D12; 44_io.md R170, R173; 20_memory.md 3 (R53). -/
def Obligations.InpOnTheReferenceConsole : Prop :=
  ∀ (s : State) (x : Operand) (size : Nat) (cells : Memory) (outPort : Port) (input : List Byte) (output : List Word),
    s.hold = none →
    s.devices = [⟨[⟨false, 0, size⟩], .storage cells⟩,
      ⟨[⟨true, s.params.inPort.toNat, 1⟩, ⟨true, outPort.toNat, 1⟩],
        .console s.params.inPort outPort input output⟩] →
    (∀ b rest, input = b :: rest →
      exec (.inp x) s = .next { s.accResult (b.setWidth 16)
        [⟨[⟨false, 0, size⟩], .storage cells⟩,
          ⟨[⟨true, s.params.inPort.toNat, 1⟩, ⟨true, outPort.toNat, 1⟩],
            .console s.params.inPort outPort rest output⟩] with ioRequest := false }) ∧
    (input = [] → exec (.inp x) s = .next { s with
      ioRequest := true, hold := some ⟨.execute (.inp 0#12), 1⟩ })

/-- O29. OUT writes ACC's low byte to every device that answers the output port, with io_request clear afterwards. For
every state with canonical storage and every operand field: exec of OUT answers a state t that is s but for the
devices and io_request, which is clear; each device keeps its place and predicate; one that does not answer
OUT_PORT is unchanged, one that does is written ACC mod 256 there; a console whose output port it is has that Word
appended to its output (the spec's decision D12; where its input port is the same port, of which D12 also says that
a write is ignored, the model's choice is log entry 19); a storage device holds it at that address and every other
cell is as before. Rests on: 44_io.md R171 (pseudocode, flags, corner cases); 44_io.md R172; 92_eei_decisions.md
D12, D26. -/
def Obligations.OutWritesEveryMatchingDevice : Prop :=
  ∀ (s : State) (x : Operand), s.memoryWf →
    (lowByte s.acc).toNat = s.acc.toNat % 256 ∧
    ∃ t, exec (.out x) s = .next t ∧ t = { s with devices := t.devices, ioRequest := false } ∧
      t.devices.length = s.devices.length ∧
      ∀ (k : Nat) (d : Device), s.devices[k]? = some d → ∃ e, t.devices[k]? = some e ∧ e.claims = d.claims ∧
        (d.responds s.params.outPort.toNat true = false → e = d) ∧
        (d.responds s.params.outPort.toNat true = true →
          e = d.withKind (d.kind.write s.params.outPort.toNat (lowByte s.acc)) ∧
          (∀ inPort input output, d.kind = .console inPort s.params.outPort input output →
            e.kind = .console inPort s.params.outPort input (output ++ [lowByte s.acc])) ∧
          (d.isStorage = true → e.cell s.params.outPort.toNat = some (lowByte s.acc))) ∧
        ∀ b, b ≠ s.params.outPort.toNat → e.cell b = d.cell b

/-- O30. HALT, NOT, SHL, SHR, INP and OUT run alike whatever their operand field holds. For every state and every two
operand fields x and y, each of the six instructions answers the same with x as with y. Rests on: 30_encoding.md 3
(R75); 30_encoding.md 1 (R72). -/
def Obligations.IgnoredOperandsChangeNothing : Prop :=
  ∀ (s : State) (x y : Operand),
    exec (.halt x) s = exec (.halt y) s ∧ exec (.not x) s = exec (.not y) s ∧ exec (.shl x) s = exec (.shl y) s ∧
    exec (.shr x) s = exec (.shr y) s ∧ exec (.inp x) s = exec (.inp y) s ∧ exec (.out x) s = exec (.out y) s

/-- O31. Decode splits a Word into opcode w[15:12] and operand w[11:0], and an operand used as an address is its value.
For every Word w, the opcode field is w div 4096 and the operand field n = w mod 4096, unscaled and zero-extended.
An instruction decoded from w has the mnemonic the map gives that opcode and the operand n. In every state whose
ADDR_BITS is at least the field's 12 bits (the spec's value is 12): LOAD, ADD, SUB, AND, OR and XOR make the bus
read of address n (the devices are those that read leaves, a NoData records n, a hold the place it gives, and a
LOAD has its Word in ACC); STORE writes at n; BRA goes to n, BRP does so where P is set and BRZ where Z is set.
That a narrower ADDR_BITS would cut n is the model's choice (log entry 12) and no part of this. What a NoData
records is R182 with decision D5; what a hold records is the model's form of one (log entry 7). Rests on:
30_encoding.md 1 (R71, R72); 60_exceptions.md 1 (R182, Data); 92_eei_decisions.md D5. -/
def Obligations.DecodeSplitsTheWord : Prop :=
  (∀ w : Word, (opcodeField w).toNat = w.toNat / 4096 ∧ (operandField w).toNat = w.toNat % 4096) ∧
  ∀ (m : OpcodeMap) (w : Word) (i : Instr), decode m w = .instr i →
    m.mnemonicOf (opcodeField w) = some i.mnemonic ∧ i.operand.toNat = w.toNat % 4096 ∧
    ∀ s : State, 12 ≤ s.params.addrBits →
      (∀ a r t, dataOperand i = some a → s.busRead (w.toNat % 4096) = (r, t) → ∃ u, exec i s = .next u ∧
        u.devices = t.devices ∧
        (r = .answered none → u.fault = some (.noData .data (w.toNat % 4096))) ∧
        (∀ k, r = .held k → u.hold = some ⟨.execute i, k⟩) ∧
        ∀ v, r = .answered (some v) → i = .load a → u.acc = v) ∧
      (∀ a, i = .store a → exec i s = .next (s.busWrite (w.toNat % 4096) s.acc)) ∧
      (∀ a, i = .bra a → exec i s = .next { s with pc := w.toNat % 4096 }) ∧
      (∀ a, i = .brp a → exec i s = .next { s with pc := if s.positive = true then w.toNat % 4096 else s.pc }) ∧
      ∀ a, i = .brz a → exec i s = .next { s with pc := if s.zero = true then w.toNat % 4096 else s.pc }

/-- O32. Under every two-way opcode map, decode and encode are inverse, with every operand at every value. For every
opcode map in which no opcode and no mnemonic has two rows: decoding the encoding of an instruction gives it back;
encoding what a Word decodes to gives the Word back; and every instruction whose mnemonic has a row has an
encoding. Rests on: 30_encoding.md 4 (R78); 30_encoding.md 2 (R73). -/
def Obligations.DecodeEncodeAgree : Prop :=
  ∀ m : OpcodeMap, m.wf →
    (∀ (i : Instr) (w : Word), encode m i = some w → decode m w = .instr i) ∧
    (∀ (i : Instr) (w : Word), decode m w = .instr i → encode m i = some w) ∧
    ∀ i : Instr, i.wf m → ∃ w, encode m i = some w

/-- O33. Under a full opcode map every Word decodes and every instruction encodes; the spec's map is full and two-way.
The map of R73 is two-way and full. Under every full map every one of the 65536 Words decodes to an instruction,
and under every full two-way map every instruction is the decoding of exactly one Word. Rests on: 30_encoding.md 2
(R74); 30_encoding.md 2 (R73). -/
def Obligations.FullMapDecodesEveryWord : Prop :=
  (Config.opcodeMap.wf ∧ Config.opcodeMap.full) ∧
  (∀ m : OpcodeMap, m.full → ∀ w : Word, ∃ i, decode m w = .instr i) ∧
  ∀ m : OpcodeMap, m.wf → m.full → ∀ i : Instr, ∃ w, decode m w = .instr i ∧ ∀ w', decode m w' = .instr i → w' = w

/-- O34. One Word of each opcode decodes to its instruction (the spec's opcode map, decision D1). Sixteen Words,
written out from the spec's encodings, decode to the instructions they stand for under the map of R73. Rests on:
30_encoding.md 2 (R73); 95_test_vectors.md 2.7; 92_eei_decisions.md D1. -/
def Obligations.SpecWordsDecode : Prop :=
  decode Config.opcodeMap 0x0ABC#16 = .instr (.halt 0xABC#12) ∧
  decode Config.opcodeMap 0x1002#16 = .instr (.load 0x002#12) ∧
  decode Config.opcodeMap 0x2100#16 = .instr (.store 0x100#12) ∧
  decode Config.opcodeMap 0x300A#16 = .instr (.add 0x00A#12) ∧
  decode Config.opcodeMap 0x400C#16 = .instr (.sub 0x00C#12) ∧
  decode Config.opcodeMap 0x500A#16 = .instr (.and 0x00A#12) ∧
  decode Config.opcodeMap 0x600A#16 = .instr (.or 0x00A#12) ∧
  decode Config.opcodeMap 0x700A#16 = .instr (.xor 0x00A#12) ∧
  decode Config.opcodeMap 0x8FFF#16 = .instr (.not 0xFFF#12) ∧
  decode Config.opcodeMap 0x9000#16 = .instr (.shl 0x000#12) ∧
  decode Config.opcodeMap 0xA5A5#16 = .instr (.shr 0x5A5#12) ∧
  decode Config.opcodeMap 0xBFFF#16 = .instr (.bra 0xFFF#12) ∧
  decode Config.opcodeMap 0xC123#16 = .instr (.brp 0x123#12) ∧
  decode Config.opcodeMap 0xD010#16 = .instr (.brz 0x010#12) ∧
  decode Config.opcodeMap 0xE000#16 = .instr (.inp 0x000#12) ∧
  decode Config.opcodeMap 0xFFFF#16 = .instr (.out 0xFFF#12)

/-- O35. Packing gives (opcode << 12) | operand on unbounded integers, and EncodingOverflow above 0xFFFF. For all
naturals opcode and operand: if (opcode << 12) | operand exceeds 0xFFFF the packing fails with EncodingOverflow,
and otherwise it gives the Word of that value. Rests on: R77. -/
def Obligations.PackRule : Prop :=
  ∀ opcode operand : Nat,
    (opcode * 4096 ||| operand > 0xFFFF → packUnchecked opcode operand = .error .encodingOverflow) ∧
    (opcode * 4096 ||| operand ≤ 0xFFFF →
      ∃ w : Word, packUnchecked opcode operand = .ok w ∧ w.toNat = opcode * 4096 ||| operand)

/-- O36. The encoder packs exactly the valid pairs, and their fields come back; wider operands are refused (decision
D19). For every opcode and every operand up to 0xFFF, packing gives a Word whose fields are the two. For every
Word, packing its fields gives it back. An operand of 0x1000 or more is never packed: it is EncodingOverflow where
the packed value exceeds 0xFFFF, and refused where it would only reach into the opcode field. Rests on:
30_encoding.md 4 (R78, R79); 92_eei_decisions.md D19. -/
def Obligations.ValidPairsComeBack : Prop :=
  (∀ (op : Opcode) (n : Nat), n ≤ 0xFFF →
    ∃ w, packPair op n = .ok w ∧ opcodeField w = op ∧ (operandField w).toNat = n) ∧
  (∀ w : Word, packPair (opcodeField w) (operandField w).toNat = .ok w) ∧
  (∀ (op : Opcode) (n : Nat), 0xFFF < n → n ≤ 0xFFFF → packPair op n = .error .operandTooWide) ∧
  ∀ (op : Opcode) (n : Nat), 0xFFFF < n → packPair op n = .error .encodingOverflow

/-- O37. An opcode without a row faults with IllegalOpcode after the PC increment; under a full map no step ever raises
it. From an active, unfaulted state with no read on hold: if the fetch answers the Word w and leaves t, and the map
has no row for w's opcode, step answers s with PC + 1 (modulo 2^ADDR_BITS), fault = IllegalOpcode(w) and the
devices as the fetch leaves them, and no other change. Under a full map, a step never answers a state with
IllegalOpcode that was not recorded before. Rests on: R118; R181. -/
def Obligations.IllegalOpcodeOnlyUnderAPartialMap : Prop :=
  (∀ (s t : State) (w : Word), s.fault = none → s.active = true → s.hold = none →
    s.busRead s.pc = (.answered (some w), t) → s.params.opcodeMap.mnemonicOf (opcodeField w) = none →
    step s = .next { s with
      pc := (s.pc + 1) % 2 ^ s.params.addrBits, fault := some (.illegalOpcode w), devices := t.devices }) ∧
  ∀ (s t : State) (w : Word), s.params.opcodeMap.full → step s = .next t →
    t.fault = some (.illegalOpcode w) → s.fault = some (.illegalOpcode w)

/-- O38. A step runs the instruction that the Word at PC decodes to, with PC already incremented modulo 2^ADDR_BITS.
From an active, unfaulted state with no read on hold: if the bus read of PC answers the Word w and leaves t, and w
decodes to i, then step is exec of i at s with PC + 1 (modulo 2^ADDR_BITS) and the devices as the fetch leaves
them. Rests on: 40_cycle.md 1 (R110 to R114). -/
def Obligations.StepRunsTheDecodedInstruction : Prop :=
  ∀ (s t : State) (w : Word) (i : Instr), s.fault = none → s.active = true → s.hold = none →
    s.busRead s.pc = (.answered (some w), t) → decode s.params.opcodeMap w = .instr i →
    step s = exec i { s with pc := (s.pc + 1) % 2 ^ s.params.addrBits, devices := t.devices }

/-- O39. A step of a faulted machine and a step of a halted machine change nothing. If a fault is recorded, or active
is false, step answers the same state. That a faulted machine stays faulted is the spec's decision D8. Rests on:
40_cycle.md 1 (R110); 60_exceptions.md 2 (R186); 92_eei_decisions.md D8. -/
def Obligations.StoppedMachineStays : Prop :=
  ∀ s : State, s.fault ≠ none ∨ s.active = false → step s = .next s

/-- O40. A fetch that gets no data faults with NoData(fetch, PC) after the PC increment, and changes nothing else. From
an active, unfaulted state with no read on hold: if the bus read of PC answers NoData and leaves t, step answers s
with PC + 1 (modulo 2^ADDR_BITS), fault = NoData(fetch, PC) and the devices as the fetch leaves them. Decision D5
of the spec. Rests on: 60_exceptions.md 1 (R182, Fetch); 40_cycle.md 1 (R110, R112); 92_eei_decisions.md D5. -/
def Obligations.FetchNoDataIsFatal : Prop :=
  ∀ s t : State, s.fault = none → s.active = true → s.hold = none →
    s.busRead s.pc = (.answered none, t) →
    step s = .next { s with
      pc := (s.pc + 1) % 2 ^ s.params.addrBits, fault := some (.noData .fetch s.pc), devices := t.devices }

/-- O41. A fetch whose device blocks suspends the step before the PC increment and is taken up again (log entries 7 and
8). From an active, unfaulted state: with no read on hold, a fetch held at place k answers s with the hold recorded
and PC unchanged. With a fetch on hold, the environment acts on the blocking device and the fetch goes on from it:
if it answers a Word that decodes to i, step is exec of i with PC + 1 (modulo 2^ADDR_BITS). The form of a hold is
the model's choice (log entry 7). Rests on: 40_cycle.md 1 (R110); 20_memory.md 3 (R53). -/
def Obligations.FetchCanHold : Prop :=
  (∀ (s t : State) (k : Nat), s.fault = none → s.active = true → s.hold = none →
    s.busRead s.pc = (.held k, t) →
    step s = .next { s with devices := t.devices, hold := some ⟨.fetch, k⟩ }) ∧
  ∀ (s t : State) (k : Nat) (w : Word) (i : Instr), s.fault = none → s.active = true → s.hold = some ⟨.fetch, k⟩ →
    s.environmentActs.busRead s.pc = (.answered (some w), t) → decode s.params.opcodeMap w = .instr i →
    step s = exec i { s.environmentActs with
      pc := (s.pc + 1) % 2 ^ s.params.addrBits, devices := t.devices, hold := none }

/-- O42. A machine blocked in an instruction's read goes on with that read at the blocking device, without a new fetch
(log entries 6, 7 and 18). From an active, unfaulted state with the read of instruction i on hold at place k: step
is exec of i after the environment has acted. The environment changes only the device at place k, whose predicate
it keeps and whose cells it leaves, and the model's own counter (log entry 6). The read that goes on, from any
state on hold at place k, leaves the devices before k as they are, is a read of the devices from place k on, and so
reads the device at k first, if that device responds. The form of a hold is the model's choice (log entry 7); that
a held read goes on at the blocking device is log entry 18. Rests on: 44_io.md R173; 60_exceptions.md 5 (R195);
20_memory.md 3 (R53); 20_memory.md 2 (R45). -/
def Obligations.BlockedInstructionGoesOn : Prop :=
  (∀ (s : State) (i : Instr) (k : Nat), s.fault = none → s.active = true → s.hold = some ⟨.execute i, k⟩ →
    step s = exec i s.environmentActs ∧
    s.environmentActs =
      { s with devices := s.environmentActs.devices, arrivals := s.environmentActs.arrivals } ∧
    (∀ j, j ≠ k → s.environmentActs.devices[j]? = s.devices[j]?) ∧
    (∀ b, s.environmentActs.cell k b = s.cell k b) ∧
    s.devices.map Device.claims = s.environmentActs.devices.map Device.claims) ∧
  ∀ (s : State) (stage : HoldStage) (k a : Nat), s.hold = some ⟨stage, k⟩ →
    (s.busRead a).2.devices = s.devices.take k ++ (Bus.read a s.ioRequest (s.devices.drop k)).2 ∧
    (∀ v, (Bus.read a s.ioRequest (s.devices.drop k)).1 = .answered v → (s.busRead a).1 = .answered v) ∧
    (∀ j, (Bus.read a s.ioRequest (s.devices.drop k)).1 = .held j → (s.busRead a).1 = .held (k + j)) ∧
    ∀ d, s.devices[k]? = some d → d.responds (effectiveAddress a s.ioRequest) s.ioRequest = true →
      (s.busRead a).2.devices[k]? = some (d.withKind (d.kind.read (effectiveAddress a s.ioRequest)).2)

/-- O43. A step that raises a fatal condition leaves ACC, flags, run flag and storage; PC is the fetch address + 1
(D15; holds: log entry 7). For every state s with the invariant and no fault, if step answers t with a fault, then
ACC, both flags, active and the parameters are those of s, io_request is clear, no read is on hold, every storage
cell reads as before, and PC is PC + 1 (modulo 2^ADDR_BITS), or unchanged where the instruction had been fetched
before a hold. Precision is the spec's decision D15. That no read is on hold, and the case of an instruction
fetched before a hold, are the model's: a step of the spec may be many of the model (log entry 7). Rests on:
60_exceptions.md 1 (R184, R185); 92_eei_decisions.md D15. -/
def Obligations.FatalConditionIsPrecise : Prop :=
  ∀ (s t : State) (f : Fault), s.Inv → s.fault = none → step s = .next t → t.fault = some f →
    t.acc = s.acc ∧ t.zero = s.zero ∧ t.positive = s.positive ∧ t.active = s.active ∧ t.params = s.params ∧
    t.ioRequest = false ∧ t.hold = none ∧ (∀ k b, t.cell k b = s.cell k b) ∧
    (t.pc = (s.pc + 1) % 2 ^ s.params.addrBits ∨ (t.pc = s.pc ∧ ∃ i k, s.hold = some ⟨.execute i, k⟩))

/-- O44. No instruction but STORE and OUT changes any cell of any storage device. If exec answers next t from s for an
instruction other than STORE and OUT, every cell of every storage device reads as before, whatever the read came to
(a Word, NoData, a hold). Rests on: 20_memory.md 3 (R55); 20_memory.md 4 (R59). -/
def Obligations.OnlyStoreAndOutWriteStorage : Prop :=
  ∀ (i : Instr) (s t : State), writesBus i = false → exec i s = .next t → ∀ k b, t.cell k b = s.cell k b

/-- O45. Each step makes the accesses of R59 and no other: one fetch, then at most one read or write. From a state with
io_request clear and no read on hold: the devices after a fetch, whatever it comes to, are those after one memory
read of PC, and the Word decoded is the one it gives; after LOAD, ADD, SUB, AND, OR, XOR those after one memory
read of the address of the operand; after STORE those after one memory write of ACC at the address of the operand;
after INP those after one port read of IN_PORT, whose low 8 bits are ACC where it answers a Word; after OUT those
after one port write of the low byte of ACC to OUT_PORT; after HALT, NOT, SHL, SHR, BRA, BRP and BRZ those before
it. The address of an operand is its value at the width ADDR_BITS (State.addressOf; log entry 12). Rests on:
20_memory.md 4 (R59); 30_encoding.md 1 (R72); 40_cycle.md 1 (R111). -/
def Obligations.BusTransactionsOfEachInstruction : Prop :=
  ∀ s t : State, s.ioRequest = false → s.hold = none →
    (s.fetchDecode = .stopped t → t.devices = (Bus.read s.pc false s.devices).2) ∧
    (∀ i, s.fetchDecode = .ready i t → t.devices = (Bus.read s.pc false s.devices).2 ∧
      ∃ w, (Bus.read s.pc false s.devices).1 = .answered (some w) ∧
        decode s.params.opcodeMap w = .instr i) ∧
    (∀ i a, dataOperand i = some a → exec i s = .next t → t.devices = (Bus.read (s.addressOf a) false s.devices).2) ∧
    (∀ a, exec (.store a) s = .next t → t.devices = Bus.write (s.addressOf a) false s.acc s.devices) ∧
    (∀ x, exec (.inp x) s = .next t →
      t.devices = (Bus.read s.params.inPort.toNat true s.devices).2 ∧
      ∀ v, (Bus.read s.params.inPort.toNat true s.devices).1 = .answered (some v) → t.acc = lowByte v) ∧
    (∀ x, exec (.out x) s = .next t →
      t.devices = Bus.write s.params.outPort.toNat true (lowByte s.acc) s.devices) ∧
    ∀ i, readsBus i = false → writesBus i = false → exec i s = .next t → t.devices = s.devices

/-- O46. A Word STORE puts at an address is the instruction the next fetch from there runs, where storage answers it.
From an active, unfaulted state with io_request clear, no read on hold and canonical storage: if some device and
only storage answers the address of the operand a, STORE a answers t, and the Word in ACC decodes to i, then a step
from t with PC = that address is exec of i there with PC one higher (modulo 2^ADDR_BITS). The address of a is its
value at the width ADDR_BITS (State.addressOf; log entry 12). Rests on: 20_memory.md 3 (R56);
70_reset_and_hazards.md 3 (R205). -/
def Obligations.StoredWordIsFetchedNext : Prop :=
  ∀ (s t : State) (a : Operand) (i : Instr), s.memoryWf → s.ioRequest = false → s.hold = none → s.fault = none →
    s.active = true → s.onlyStorage (s.addressOf a) false → (∃ d ∈ s.devices, d.responds (s.addressOf a) false = true) →
    exec (.store a) s = .next t → decode s.params.opcodeMap s.acc = .instr i →
    step { t with pc := s.addressOf a } =
      exec i { t with pc := (s.addressOf a + 1) % 2 ^ s.params.addrBits }

/-- O47. run() performs no step on a halted or faulted machine, and otherwise steps and goes on. If the machine is not
active or a fault is recorded, any number of rounds answers the same state. If it is active and unfaulted, n + 1
rounds are a step and then n rounds. Rests on: 40_cycle.md 1 (R115); 92_eei_decisions.md D22. -/
def Obligations.RunTestsBeforeEachStep : Prop :=
  ∀ (n : Nat) (s : State),
    (s.active = false ∨ s.fault ≠ none → runFor n s = .next s) ∧
    (∀ t, s.active = true → s.fault = none → step s = .next t → runFor (n + 1) s = runFor n t)

/-- O48. Setting up a run registers the devices in order, loads the program by one bus write a pair, and resets the
CPU. For all parameters, device lists and programs: the devices after boot are the given list, in its order, after
one memory-space bus write for each pair of the program in order; the CPU's state is that of reset. Rests on:
70_reset_and_hazards.md 2 (R202); 20_memory.md 2 (R43). -/
def Obligations.BootRegistersAndLoads : Prop :=
  ∀ (p : Params) (ds : List Device) (program : List (Nat × Word)),
    State.boot p ds program = { State.reset with
      params := p, devices := program.foldl (fun l line => Bus.write line.1 false line.2 l) ds }

/-- O49. Assembling the disassembly of a Word as one line at any address gives the Word back at that address. For every
two-way opcode map, every Word w that has a disassembly, and every address a up to 0xFFF: assembling that text from
address a gives exactly the pair (a, w). Under a full map every Word has a disassembly. The text form is the spec's
decision D9. Rests on: 30_encoding.md 5 (R80, R82); 92_eei_decisions.md D9. -/
def Obligations.DisassembledTextAssemblesBack : Prop :=
  ∀ m : OpcodeMap, m.wf →
    (∀ (w : Word) (text : List Char) (a : Nat), a ≤ 0xFFF → disassemble m w = some text →
      assembleAt m a text = .ok [(a, w)]) ∧
    (m.full → ∀ w : Word, ∃ text, disassemble m w = some text)

/-- O50. The fixup pass outputs one pair per record, in source order, each packed from its resolved operand (at most
0xFFF), or fails whole. For every symbol table and list of pending records: the pass gives the list of lines iff
the lists correspond record by record, each line having the record's address and the packing of its opcode with its
resolved operand. The packing is R77's, with the refusal of an operand above 0xFFFF as EncodingOverflow and of one
in 0x1000 to 0xFFFF, which R77 alone would pack, as R79 and decision D19 ask of a model (packPair; log entry 16 for
the order of the two): a record with an operand above 0xFFF makes the whole pass fail. A symbol without a binding
makes its record fail with UndefinedSymbol; that this records the symbol's name is the model's choice (log entry
24). Rests on: 30_encoding.md 6 (R89); 30_encoding.md 4 (R77, R79); 92_eei_decisions.md D19. -/
def Obligations.FixupGivesOneLinePerRecord : Prop :=
  (∀ (symbols : List (Token × Nat)) (rs : List PendingRecord) (lines : List (Nat × Word)),
    fixupAll symbols rs = .ok lines ↔
      List.Forall₂ (fun r line => line.1 = r.address ∧
        ∃ n, resolve symbols r.operand = .ok n ∧ packPair r.opcode n = .ok line.2) rs lines) ∧
  (∀ (symbols : List (Token × Nat)) (rs : List PendingRecord) (r : PendingRecord) (n : Nat), r ∈ rs →
    resolve symbols r.operand = .ok n → 0xFFF < n → ∀ lines, fixupAll symbols rs ≠ .ok lines) ∧
  ∀ (symbols : List (Token × Nat)) (a : Nat) (op : Opcode) (name : Token) (rs : List PendingRecord),
    lookupSymbol symbols name = none →
    fixupAll symbols (⟨a, op, .symbol name⟩ :: rs) = .error (.undefinedSymbol name)

/-- O51. A label takes no slot and is bound to the counter; org. sets the counter or fails with IllegalOrigin. For
every map, assembler state and rest of line: a token name: whose name does not start with a comment mark binds it,
where it is new, to the address counter and leaves the counter, and a name declared before is refused (decision
D17); a token #...: is refused (R84, C5, decision D11); org. with an integer literal sets the counter to it; org.
with anything else, or with nothing, fails with IllegalOrigin. That the bare token : declares the empty name, and
that org. with malformed hex or a comment mark is IllegalOrigin, are the model's choices (log entry 15), and so are
the name and the token the refusals record (log entry 24). Rests on: 30_encoding.md 6 (R84, R85, R87);
90_conflicts.md C5; 92_eei_decisions.md D11, D17. -/
def Obligations.LabelsAndOriginsSetTheCounter : Prop :=
  ∀ (m : OpcodeMap) (st : AsmState) (rest : List Token),
    (∀ name, name.head? ≠ some '#' → lookupSymbol st.symbols name = none →
      assembleTokens m st ((name ++ [':']) :: rest) =
        assembleTokens m { st with symbols := st.symbols ++ [(name, st.counter)] } rest) ∧
    (∀ name n, name.head? ≠ some '#' → lookupSymbol st.symbols name = some n →
      assembleTokens m st ((name ++ [':']) :: rest) = .error (.duplicateLabel name)) ∧
    (∀ name, name.head? = some '#' →
      assembleTokens m st ((name ++ [':']) :: rest) = .error (.unknownToken (name ++ [':']))) ∧
    (∀ t n, integerLiteral t = some n →
      assembleTokens m st (['o', 'r', 'g', '.'] :: t :: rest) = assembleTokens m { st with counter := n } rest) ∧
    (∀ t, integerLiteral t = none →
      assembleTokens m st (['o', 'r', 'g', '.'] :: t :: rest) = .error .illegalOrigin) ∧
    assembleTokens m st [['o', 'r', 'g', '.']] = .error .illegalOrigin

/-- O52. Every run ends in exactly one of four ways: halted, faulted, blocked in one read for ever, or diverging
(holds: log entries 7 and 8). For every state s, the run from s (the rounds of run()'s loop, without bound) ends in
one of the four ways of R207 and in no other. Halted and Faulted: some round comes to a halted or a faulted state.
Blocked: from some round on every round stands in the same held read. Diverging: no round halts or faults, and
rounds between two instructions never cease. That a hold has a record and takes rounds is log entry 7, that a fetch
or data read can hold is log entry 8. Rests on: 70_reset_and_hazards.md 5 (R207); 40_cycle.md 1 (R115);
92_eei_decisions.md D8, D24. -/
def Obligations.EveryRunEndsInExactlyOneWay : Prop :=
  ∀ s : State, ∃ e : RunEnd, s.runEnds e ∧ ∀ e' : RunEnd, s.runEnds e' → e' = e
end

