-- ==== Sys2Proof/Laws/PerInstr.lean ====
section
/-! SUPPORT. Statements made one instruction at a time. -/

namespace Sys2Proof.Laws.Rebuild

/-- Taking an instruction apart and putting it together again gives it back: no operand bit is dropped. -/
def Statement (i : Instr) : Prop := Instr.make i.mnemonic i.operand = i

theorem halt (x : Operand) : Statement (.halt x) := rfl
theorem load (x : Operand) : Statement (.load x) := rfl
theorem store (x : Operand) : Statement (.store x) := rfl
theorem add (x : Operand) : Statement (.add x) := rfl
theorem sub (x : Operand) : Statement (.sub x) := rfl
theorem and (x : Operand) : Statement (.and x) := rfl
theorem or (x : Operand) : Statement (.or x) := rfl
theorem xor (x : Operand) : Statement (.xor x) := rfl
theorem not (x : Operand) : Statement (.not x) := rfl
theorem shl (x : Operand) : Statement (.shl x) := rfl
theorem shr (x : Operand) : Statement (.shr x) := rfl
theorem bra (x : Operand) : Statement (.bra x) := rfl
theorem brp (x : Operand) : Statement (.brp x) := rfl
theorem brz (x : Operand) : Statement (.brz x) := rfl
theorem inp (x : Operand) : Statement (.inp x) := rfl
theorem out (x : Operand) : Statement (.out x) := rfl

end Sys2Proof.Laws.Rebuild
end

