-- ==== Sys2Proof/Laws/Encoding.lean ====
section
/-! SUPPORT. The fields of a Word and the opcode map read both ways. -/

namespace Sys2Proof

theorem opcodeField_pack (op : Opcode) (x : Operand) : opcodeField (packFields op x) = op := by
  apply BitVec.eq_of_getLsbD_eq
  intro i hi
  simp only [opcodeField, packFields, BitVec.getLsbD_extractLsb', BitVec.getLsbD_append, hi, decide_true,
    Bool.true_and]
  rw [if_neg (by omega)]
  congr 1
  omega

theorem operandField_pack (op : Opcode) (x : Operand) : operandField (packFields op x) = x := by
  apply BitVec.eq_of_getLsbD_eq
  intro i hi
  simp only [operandField, packFields, BitVec.getLsbD_extractLsb', BitVec.getLsbD_append, hi, decide_true,
    Bool.true_and]
  rw [if_pos (by omega)]
  congr 1
  omega

theorem pack_fields (w : Word) : packFields (opcodeField w) (operandField w) = w := by
  apply BitVec.eq_of_getLsbD_eq
  intro i hi
  simp only [opcodeField, operandField, packFields, BitVec.getLsbD_extractLsb', BitVec.getLsbD_append]
  by_cases h : i < 12
  · simp [h]
  · rw [if_neg h]
    have : i - 12 < 4 := by omega
    simp only [this, decide_true, Bool.true_and]
    congr 1
    omega

theorem opcodeField_toNat (w : Word) : (opcodeField w).toNat = w.toNat / 4096 := by
  simp only [opcodeField, BitVec.extractLsb'_toNat, Nat.shiftRight_eq_div_pow]
  omega

theorem operandField_toNat (w : Word) : (operandField w).toNat = w.toNat % 4096 := by
  simp only [operandField, BitVec.extractLsb'_toNat, Nat.shiftRight_zero]

@[simp] theorem Instr.mnemonic_make (mn : Mnemonic) (x : Operand) : (Instr.make mn x).mnemonic = mn := by
  cases mn <;> rfl

@[simp] theorem Instr.operand_make (mn : Mnemonic) (x : Operand) : (Instr.make mn x).operand = x := by
  cases mn <;> rfl

theorem Instr.make_eta (i : Instr) : Instr.make i.mnemonic i.operand = i := by
  cases i <;> rfl

theorem OpcodeMap.mnemonicOf_eq (m : OpcodeMap) (h : m.wf) (op : Opcode) (mn : Mnemonic) :
    m.mnemonicOf op = some mn ↔ (op, mn) ∈ m := by
  obtain ⟨h, -⟩ := h
  induction m with
  | nil => simp [OpcodeMap.mnemonicOf]
  | cons e m ih =>
    obtain ⟨o, n⟩ := e
    rw [List.map_cons, List.nodup_cons] at h
    simp only [OpcodeMap.mnemonicOf, List.find?_cons] at ih ⊢
    by_cases hoe : o = op
    · subst hoe
      have : (o, mn) ∉ m := fun hm => h.1 (List.mem_map.2 ⟨_, hm, rfl⟩)
      simp [this, eq_comm]
    · have : (o == op) = false := by simpa using hoe
      simp only [this, ih h.2, List.mem_cons, Prod.mk.injEq]
      constructor
      · exact .inr
      · rintro (⟨rfl, -⟩ | hm)
        · exact absurd rfl hoe
        · exact hm

theorem OpcodeMap.opcodeOf_eq (m : OpcodeMap) (h : m.wf) (op : Opcode) (mn : Mnemonic) :
    m.opcodeOf mn = some op ↔ (op, mn) ∈ m := by
  obtain ⟨-, h⟩ := h
  induction m with
  | nil => simp [OpcodeMap.opcodeOf]
  | cons e m ih =>
    obtain ⟨o, n⟩ := e
    rw [List.map_cons, List.nodup_cons] at h
    simp only [OpcodeMap.opcodeOf, List.find?_cons] at ih ⊢
    by_cases hoe : n = mn
    · subst hoe
      have : (op, n) ∉ m := fun hm => h.1 (List.mem_map.2 ⟨_, hm, rfl⟩)
      simp [this, eq_comm]
    · have : (n == mn) = false := by simpa using hoe
      simp only [this, ih h.2, List.mem_cons, Prod.mk.injEq]
      constructor
      · exact .inr
      · rintro (⟨-, rfl⟩ | hm)
        · exact absurd rfl hoe
        · exact hm

/-- Decoding is reading the two fields and the map. -/
theorem decode_eq_instr (m : OpcodeMap) (w : Word) (i : Instr) :
    decode m w = .instr i ↔ m.mnemonicOf (opcodeField w) = some i.mnemonic ∧ operandField w = i.operand := by
  unfold decode
  constructor
  · intro h
    split at h
    · rename_i mn hmn
      injection h with h
      subst h
      simp [hmn]
    · cases h
  · rintro ⟨h1, h2⟩
    rw [h1, h2]
    simp [Instr.make_eta]

end Sys2Proof
end

