-- ==== Sys2Proof/Laws/Assembler.lean ====
section
/-! SUPPORT. Splitting text, and the pieces of the packing rule. -/

namespace Sys2Proof.Machine

/-- Text without a separating character is one piece. -/
theorem pieces_of_none (separates : Char → Bool) (l : List Char) (h : ∀ c ∈ l, separates c = false) :
    pieces separates l = [l] := by
  induction l with
  | nil => rfl
  | cons c l ih =>
    have hc : separates c = false := h c (by simp)
    simp [pieces, hc, ih fun c hc => h c (by simp [hc])]

/-- The text before the first separating character is the first piece. -/
theorem pieces_append (separates : Char → Bool) (l r : List Char) (c : Char) (h : ∀ c ∈ l, separates c = false)
    (hc : separates c = true) : pieces separates (l ++ c :: r) = l :: pieces separates r := by
  induction l with
  | nil => simp [pieces, hc]
  | cons d l ih =>
    have hd : separates d = false := h d (by simp)
    simp [pieces, hd, ih fun c hc => h c (by simp [hc])]

/-- A field below the opcode is added, not mixed, by the or. -/
theorem shifted_or_eq_add (op n : Nat) (h : n < 4096) : op * 4096 ||| n = op * 4096 + n := by
  have := Nat.two_pow_add_eq_or_of_lt (i := 12) (b := n) h op
  rw [Nat.mul_comm op, ← this]

end Sys2Proof.Machine
end

