-- ==== Sys2Proof/Laws/Memory.lean ====
section
/-! SUPPORT. Reads after writes, and the canonical form that every write keeps. -/

namespace Sys2Proof.Machine

theorem Memory.nil_wf : Memory.wf [] := ⟨List.Pairwise.nil, by simp⟩

theorem Memory.read_put_same (a : Nat) (v : Word) (m : Memory) (h : Memory.read m a = Memory.unlisted) :
    Memory.read (Memory.put a v m) a = v := by
  unfold Memory.put
  split
  · rename_i hv; rw [h, hv]
  · simp [Memory.read]

theorem Memory.read_put_other (a b : Nat) (v : Word) (m : Memory) (h : b ≠ a) :
    Memory.read (Memory.put a v m) b = Memory.read m b := by
  unfold Memory.put
  split
  · rfl
  · simp [Memory.read, Ne.symm h]

/-- An address below every listed one is unlisted. -/
theorem Memory.read_of_below (m : Memory) (a : Nat) (h : ∀ c ∈ m, a < c.1) : Memory.read m a = Memory.unlisted := by
  induction m with
  | nil => rfl
  | cons c m ih =>
    obtain ⟨k, u⟩ := c
    have hk : a < k := h (k, u) (by simp)
    simp only [Memory.read, if_neg (Nat.ne_of_gt hk)]
    exact ih fun c hc => h c (by simp [hc])

/-- A read after a write to the same address gives the Word written. -/
theorem Memory.read_write_same (m : Memory) (a : Nat) (v : Word) (h : m.wf) :
    Memory.read (Memory.write m a v) a = v := by
  induction m with
  | nil => exact Memory.read_put_same a v [] rfl
  | cons c m ih =>
    obtain ⟨k, u⟩ := c
    obtain ⟨hp, hn⟩ := h
    rw [List.pairwise_cons] at hp
    simp only [Memory.write]
    split
    · rename_i hlt
      refine Memory.read_put_same a v _ (Memory.read_of_below _ _ fun c hc => ?_)
      rcases List.mem_cons.1 hc with rfl | hc
      · exact hlt
      · exact Nat.lt_trans hlt (hp.1 c hc)
    · split
      · rename_i _ heq
        subst heq
        exact Memory.read_put_same a v _ (Memory.read_of_below _ _ hp.1)
      · rename_i _ hne
        rw [Memory.read, if_neg (Ne.symm hne)]
        exact ih ⟨hp.2, fun c hc => hn c (by simp [hc])⟩

/-- A write leaves every other address alone. -/
theorem Memory.read_write_other (m : Memory) (a b : Nat) (v : Word) (h : b ≠ a) :
    Memory.read (Memory.write m a v) b = Memory.read m b := by
  induction m with
  | nil => exact Memory.read_put_other a b v [] h
  | cons c m ih =>
    obtain ⟨k, u⟩ := c
    simp only [Memory.write]
    split
    · exact Memory.read_put_other a b v _ h
    · split
      · rename_i _ heq
        subst heq
        rw [Memory.read_put_other _ _ _ _ h, Memory.read, if_neg (Ne.symm h)]
      · simp only [Memory.read, ih]

theorem Memory.put_wf (a : Nat) (v : Word) (m : Memory) (h : m.wf) (hb : ∀ c ∈ m, a < c.1) :
    (Memory.put a v m).wf := by
  unfold Memory.put
  split
  · exact h
  · rename_i hv
    refine ⟨List.pairwise_cons.2 ⟨hb, h.1⟩, fun c hc => ?_⟩
    rcases List.mem_cons.1 hc with rfl | hc
    · exact hv
    · exact h.2 c hc

/-- A write puts no address below a bound that held before. -/
theorem Memory.write_above (m : Memory) (a k : Nat) (v : Word) (hk : k < a) (h : ∀ c ∈ m, k < c.1) :
    ∀ c ∈ Memory.write m a v, k < c.1 := by
  have hput : ∀ n : Memory, (∀ c ∈ n, k < c.1) → ∀ c ∈ Memory.put a v n, k < c.1 := by
    intro n hn c hc
    unfold Memory.put at hc
    split at hc
    · exact hn c hc
    · rcases List.mem_cons.1 hc with rfl | hc
      · exact hk
      · exact hn c hc
  induction m with
  | nil => exact hput [] h
  | cons e m ih =>
    obtain ⟨j, u⟩ := e
    have hm : ∀ c ∈ m, k < c.1 := fun c hc => h c (by simp [hc])
    simp only [Memory.write]
    split
    · exact hput _ h
    · split
      · exact hput _ hm
      · intro c hc
        rcases List.mem_cons.1 hc with rfl | hc
        · exact h (j, u) (by simp)
        · exact ih hm c hc

/-- Every write keeps the canonical form. -/
theorem Memory.write_wf (m : Memory) (a : Nat) (v : Word) (h : m.wf) : (Memory.write m a v).wf := by
  induction m with
  | nil => exact Memory.put_wf a v [] h (by simp)
  | cons c m ih =>
    obtain ⟨k, u⟩ := c
    obtain ⟨hp, hn⟩ := h
    rw [List.pairwise_cons] at hp
    have hm : Memory.wf m := ⟨hp.2, fun c hc => hn c (by simp [hc])⟩
    simp only [Memory.write]
    split
    · rename_i hlt
      refine Memory.put_wf a v _ ⟨List.pairwise_cons.2 hp, hn⟩ fun c hc => ?_
      rcases List.mem_cons.1 hc with rfl | hc
      · exact hlt
      · exact Nat.lt_trans hlt (hp.1 c hc)
    · split
      · rename_i _ heq
        subst heq
        exact Memory.put_wf a v m hm hp.1
      · rename_i h1 h2
        have hka : k < a := by omega
        refine ⟨List.pairwise_cons.2 ⟨Memory.write_above m a k v hka hp.1, (ih hm).1⟩, fun c hc => ?_⟩
        rcases List.mem_cons.1 hc with rfl | hc
        · exact hn (k, u) (by simp)
        · exact (ih hm).2 c hc

/-- Canonical memories that read alike are the same data. -/
theorem Memory.eq_of_read_eq (m n : Memory) (hm : m.wf) (hn : n.wf) (h : ∀ a, m.read a = n.read a) : m = n := by
  induction m generalizing n with
  | nil =>
    cases n with
    | nil => rfl
    | cons d n =>
      have := h d.1
      simp only [Memory.read, if_true] at this
      exact absurd this.symm (hn.2 d (by simp))
  | cons c m ih =>
    obtain ⟨k, u⟩ := c
    have hu : u ≠ Memory.unlisted := hm.2 (k, u) (by simp)
    have hmp := List.pairwise_cons.1 hm.1
    cases n with
    | nil =>
      have := h k
      simp only [Memory.read, if_true] at this
      exact absurd this hu
    | cons d n =>
      obtain ⟨j, w⟩ := d
      have hw : w ≠ Memory.unlisted := hn.2 (j, w) (by simp)
      have hnp := List.pairwise_cons.1 hn.1
      have hkj : k = j := by
        rcases Nat.lt_trichotomy k j with hlt | heq | hgt
        · exfalso
          have h1 : Memory.read ((j, w) :: n) k = Memory.unlisted :=
            Memory.read_of_below _ _ fun c hc => by
              rcases List.mem_cons.1 hc with rfl | hc
              · exact hlt
              · exact Nat.lt_trans hlt (hnp.1 c hc)
          have h2 := h k
          rw [h1] at h2
          simp only [Memory.read, if_true] at h2
          exact hu h2
        · exact heq
        · exfalso
          have h1 : Memory.read ((k, u) :: m) j = Memory.unlisted :=
            Memory.read_of_below _ _ fun c hc => by
              rcases List.mem_cons.1 hc with rfl | hc
              · exact hgt
              · exact Nat.lt_trans hgt (hmp.1 c hc)
          have h2 := h j
          rw [h1] at h2
          simp only [Memory.read, if_true] at h2
          exact hw h2.symm
      subst hkj
      have huw : u = w := by
        have := h k
        simpa only [Memory.read, if_true] using this
      subst huw
      congr 1
      refine ih n ⟨hmp.2, fun c hc => hm.2 c (by simp [hc])⟩ ⟨hnp.2, fun c hc => hn.2 c (by simp [hc])⟩ fun a => ?_
      by_cases ha : k = a
      · subst ha
        rw [Memory.read_of_below m k hmp.1, Memory.read_of_below n k hnp.1]
      · have := h a
        simpa only [Memory.read, if_neg ha] using this

end Sys2Proof.Machine
end

