-- ==== Sys2Proof/Laws/Bus.lean ====
section
/-! SUPPORT. What one device's read and write keep, and what the arbiter's transactions do to the device list. -/

namespace Sys2Proof.Machine

/-! ### One device -/

@[simp] theorem Device.withKind_claims (d : Device) (k : DeviceKind) : (d.withKind k).claims = d.claims := rfl
@[simp] theorem Device.withKind_kind (d : Device) (k : DeviceKind) : (d.withKind k).kind = k := rfl
@[simp] theorem Device.withKind_responds (d : Device) (k : DeviceKind) (a : Nat) (io : Bool) :
    (d.withKind k).responds a io = d.responds a io := rfl

/-- A device that is no storage stays so under a read, and storage is not changed by one. -/
theorem Device.read_cell (d : Device) (a b : Nat) : (d.withKind (d.kind.read a).2).cell b = d.cell b := by
  obtain ⟨claims, kind⟩ := d
  cases kind with
  | storage cells => rfl
  | console inPort outPort input output =>
    cases input <;> simp only [DeviceKind.read] <;> split <;> rfl
  | external id history => simp only [DeviceKind.read]; split <;> rfl

theorem Device.read_wf (d : Device) (a : Nat) (h : d.wf) : (d.withKind (d.kind.read a).2).wf := by
  obtain ⟨claims, kind⟩ := d
  cases kind with
  | storage cells => exact h
  | console inPort outPort input output =>
    cases input <;> simp only [DeviceKind.read] <;> split <;> exact Memory.nil_wf
  | external id history => simp only [DeviceKind.read]; split <;> exact Memory.nil_wf

/-- A storage device answers its cell and stays as it is. -/
theorem Device.read_storage (d : Device) (a : Nat) (h : d.isStorage = true) :
    ∃ w, d.cell a = some w ∧ d.kind.read a = (.word w, d.kind) := by
  obtain ⟨claims, kind⟩ := d
  cases kind with
  | storage cells => exact ⟨_, rfl, rfl⟩
  | console inPort outPort input output => simp [Device.isStorage] at h
  | external id history => simp [Device.isStorage] at h

theorem Device.write_wf (d : Device) (a : Nat) (v : Word) (h : d.wf) : (d.withKind (d.kind.write a v)).wf := by
  obtain ⟨claims, kind⟩ := d
  cases kind with
  | storage cells => exact Memory.write_wf cells a v h
  | console inPort outPort input output => simp only [DeviceKind.write]; split <;> exact Memory.nil_wf
  | external id history => exact Memory.nil_wf

theorem Device.write_isStorage (d : Device) (a : Nat) (v : Word) :
    (d.withKind (d.kind.write a v)).isStorage = d.isStorage := by
  obtain ⟨claims, kind⟩ := d
  cases kind with
  | storage cells => rfl
  | console inPort outPort input output => simp only [DeviceKind.write]; split <;> rfl
  | external id history => rfl

theorem Device.write_cell_same (d : Device) (a : Nat) (v : Word) (hw : d.wf) (h : d.isStorage = true) :
    (d.withKind (d.kind.write a v)).cell a = some v := by
  obtain ⟨claims, kind⟩ := d
  cases kind with
  | storage cells =>
    simp only [Device.cell, DeviceKind.write, Device.withKind_kind]
    rw [Memory.read_write_same cells a v hw]
  | console inPort outPort input output => simp [Device.isStorage] at h
  | external id history => simp [Device.isStorage] at h

theorem Device.write_cell_other (d : Device) (a b : Nat) (v : Word) (hb : b ≠ a) :
    (d.withKind (d.kind.write a v)).cell b = d.cell b := by
  obtain ⟨claims, kind⟩ := d
  cases kind with
  | storage cells =>
    simp only [Device.cell, DeviceKind.write, Device.withKind_kind]
    rw [Memory.read_write_other cells a b v hb]
  | console inPort outPort input output => simp only [DeviceKind.write]; split <;> rfl
  | external id history => rfl

theorem Device.await_wf (d : Device) (bytes : List Byte) (h : d.wf) : (d.withKind (d.kind.await bytes)).wf := by
  obtain ⟨claims, kind⟩ := d
  cases kind <;> exact h

theorem Device.await_cell (d : Device) (bytes : List Byte) (b : Nat) :
    (d.withKind (d.kind.await bytes)).cell b = d.cell b := by
  obtain ⟨claims, kind⟩ := d
  cases kind <;> rfl

/-! ### The arbiter -/

/-- A bus read relates each device to itself by anything that a device's read keeps. -/
theorem Bus.readFrom_forall₂ (R : Device → Device → Prop) (a : Nat) (io : Bool) (hrefl : ∀ d, R d d)
    (hread : ∀ d, R d (d.withKind (d.kind.read a).2)) (skip : Nat) (result : Option Word) (ds : List Device) :
    List.Forall₂ R ds (Bus.readFrom a io skip result ds).2 := by
  have hsame : ∀ ds : List Device, List.Forall₂ R ds ds := fun ds => List.forall₂_same.2 fun d _ => hrefl d
  have hpast : ∀ (d d' : Device) (ds : List Device) (r : ReadResult × List Device), R d d' →
      List.Forall₂ R ds r.2 → List.Forall₂ R (d :: ds) (Bus.past d' r).2 := by
    intro d d' ds r hd hds
    exact List.Forall₂.cons hd hds
  induction ds generalizing skip result with
  | nil => cases skip <;> exact List.Forall₂.nil
  | cons d ds ih =>
    cases skip with
    | succ skip => exact hpast d d ds _ (hrefl d) (ih skip result)
    | zero =>
      simp only [Bus.readFrom]
      split
      · have hd := hread d
        split
        · rename_i k hk
          rw [hk] at hd
          exact List.Forall₂.cons hd (hsame ds)
        · rename_i w k hk
          rw [hk] at hd
          exact hpast _ _ _ _ hd (ih 0 _)
        · rename_i k hk
          rw [hk] at hd
          exact hpast _ _ _ _ hd (ih 0 _)
      · exact hpast _ _ _ _ (hrefl d) (ih 0 result)

/-- A bus write relates each device to itself by anything that a device's write keeps. -/
theorem Bus.write_forall₂ (R : Device → Device → Prop) (a : Nat) (io : Bool) (v : Word) (hrefl : ∀ d, R d d)
    (hwrite : ∀ d, R d (d.withKind (d.kind.write (effectiveAddress a io) v))) (ds : List Device) :
    List.Forall₂ R ds (Bus.write a io v ds) := by
  unfold Bus.write
  induction ds with
  | nil => exact List.Forall₂.nil
  | cons d ds ih =>
    rw [List.map_cons]
    refine List.Forall₂.cons ?_ ih
    split
    · exact hwrite d
    · exact hrefl d

/-- Waiting relates each device to itself by anything that the environment's act keeps. -/
theorem modify_forall₂ (R : Device → Device → Prop) (f : Device → Device) (hrefl : ∀ d, R d d)
    (hf : ∀ d, R d (f d)) (k : Nat) (ds : List Device) : List.Forall₂ R ds (ds.modify k f) := by
  induction ds generalizing k with
  | nil => cases k <;> simp
  | cons d ds ih =>
    cases k with
    | zero =>
      rw [List.modify_zero_cons]
      exact List.Forall₂.cons (hf d) (List.forall₂_same.2 fun d _ => hrefl d)
    | succ k =>
      rw [List.modify_succ_cons]
      exact List.Forall₂.cons (hrefl d) (ih k)

/-- Lists related by `claims` have the same predicates. -/
theorem claims_eq_of_forall₂ {ds es : List Device} (h : List.Forall₂ (fun d e => e.claims = d.claims) ds es) :
    ds.map Device.claims = es.map Device.claims := by
  induction h with
  | nil => rfl
  | cons hd _ ih => rw [List.map_cons, List.map_cons, hd, ih]

/-- Lists related by `wf` are well-formed together. -/
theorem wf_of_forall₂ {ds es : List Device} (h : List.Forall₂ (fun d e => d.wf → e.wf) ds es)
    (hw : ∀ d ∈ ds, d.wf) : ∀ e ∈ es, e.wf := by
  induction h with
  | nil => exact fun e he => absurd he (by simp)
  | cons hd _ ih =>
    intro e he
    rcases List.mem_cons.1 he with rfl | he
    · exact hd (hw _ (by simp))
    · exact ih (fun d hd => hw d (by simp [hd])) e he

/-- Lists related by `cell` hold the same Words. -/
theorem cell_of_forall₂ {ds es : List Device} (h : List.Forall₂ (fun d e => ∀ b, e.cell b = d.cell b) ds es)
    (k b : Nat) : ((es[k]?).bind fun d => d.cell b) = (ds[k]?).bind fun d => d.cell b := by
  induction h generalizing k with
  | nil => rfl
  | cons hd _ ih =>
    cases k with
    | zero => simp [hd b]
    | succ k => simpa using ih k

theorem Bus.readFrom_claims (a : Nat) (io : Bool) (skip : Nat) (r : Option Word) (ds : List Device) :
    ds.map Device.claims = (Bus.readFrom a io skip r ds).2.map Device.claims :=
  claims_eq_of_forall₂ (Bus.readFrom_forall₂ (fun d e => e.claims = d.claims) a io (fun _ => rfl) (fun _ => rfl) skip r ds)

theorem Bus.readFrom_wf (a : Nat) (io : Bool) (skip : Nat) (r : Option Word) (ds : List Device)
    (h : ∀ d ∈ ds, d.wf) : ∀ d ∈ (Bus.readFrom a io skip r ds).2, d.wf :=
  wf_of_forall₂ (Bus.readFrom_forall₂ _ a io (fun _ => id) (fun d => d.read_wf a) skip r ds) h

theorem Bus.readFrom_cell (a : Nat) (io : Bool) (skip : Nat) (r : Option Word) (ds : List Device) (k b : Nat) :
    ((Bus.readFrom a io skip r ds).2[k]?.bind fun d => d.cell b) = (ds[k]?).bind fun d => d.cell b :=
  cell_of_forall₂ (Bus.readFrom_forall₂ _ a io (fun _ _ => rfl) (fun d b => d.read_cell a b) skip r ds) k b

theorem Bus.write_claims (a : Nat) (io : Bool) (v : Word) (ds : List Device) :
    ds.map Device.claims = (Bus.write a io v ds).map Device.claims :=
  claims_eq_of_forall₂ (Bus.write_forall₂ (fun d e => e.claims = d.claims) a io v (fun _ => rfl) (fun _ => rfl) ds)

theorem Bus.write_wf (a : Nat) (io : Bool) (v : Word) (ds : List Device) (h : ∀ d ∈ ds, d.wf) :
    ∀ d ∈ Bus.write a io v ds, d.wf :=
  wf_of_forall₂ (Bus.write_forall₂ _ a io v (fun _ => id) (fun d => d.write_wf _ v) ds) h

/-- Where only storage answers, a read holds nowhere, changes no device, and gives the last answering device's cell
(or what it was given to start with). -/
theorem Bus.readFrom_storage (a : Nat) (io : Bool) (result : Option Word) (ds : List Device)
    (h : ∀ d ∈ ds, d.responds a io = true → d.isStorage = true) :
    Bus.readFrom a io 0 result ds =
      (.answered (((ds.filter fun d => d.responds a io).getLast?).elim result fun d => d.cell a), ds) := by
  induction ds generalizing result with
  | nil => rfl
  | cons d ds ih =>
    have ih' := fun r => ih r fun e he => h e (by simp [he])
    simp only [Bus.readFrom, List.filter_cons]
    split
    · rename_i hr
      obtain ⟨w, hc, hk⟩ := d.read_storage a (h d (by simp) hr)
      simp only [hk, ih', Bus.past, ReadResult.shift]
      congr 2
      cases hf : ds.filter fun d => d.responds a io with
      | nil => exact hc.symm
      | cons e es => rfl
    · simp only [ih', Bus.past, ReadResult.shift]

/-- A result on the rest of a list, for the list with `k` more devices in front. -/
def ReadResult.after (k : Nat) : ReadResult → ReadResult
  | .answered v => .answered v
  | .held j => .held (k + j)

/-- A visit that skips `k` devices leaves these alone and is a visit from the first device of the rest. -/
theorem Bus.readFrom_skip (a : Nat) (io : Bool) (k : Nat) (result : Option Word) (ds : List Device) :
    Bus.readFrom a io k result ds =
      ((Bus.readFrom a io 0 result (ds.drop k)).1.after k,
        ds.take k ++ (Bus.readFrom a io 0 result (ds.drop k)).2) := by
  induction k generalizing ds with
  | zero =>
    rcases h : Bus.readFrom a io 0 result (ds.drop 0) with ⟨r, es⟩
    rw [List.drop_zero] at h
    cases r <;> simp [h, ReadResult.after]
  | succ k ih =>
    cases ds with
    | nil => simp [Bus.readFrom, ReadResult.after]
    | cons d ds =>
      simp only [Bus.readFrom, ih ds, Bus.past, List.drop_succ_cons, List.take_succ_cons, List.cons_append]
      cases (Bus.readFrom a io 0 result (ds.drop k)).1 <;> simp [ReadResult.after, ReadResult.shift, Nat.add_right_comm]

/-- A read that is held is held at a device of the list, at or after the place it started from. -/
theorem Bus.readFrom_held (a : Nat) (io : Bool) (k j : Nat) (result : Option Word) (ds : List Device)
    (h : (Bus.readFrom a io k result ds).1 = .held j) : k ≤ j ∧ j < ds.length := by
  induction ds generalizing k j result with
  | nil => cases k <;> cases h
  | cons d ds ih =>
    have hpast : ∀ (k' : Nat) (d' : Device) (r : Option Word), (Bus.past d' (Bus.readFrom a io k' r ds)).1 = .held j →
        k' + 1 ≤ j ∧ j < ds.length + 1 := by
      intro k' d' r hr
      simp only [Bus.past] at hr
      rcases hq : (Bus.readFrom a io k' r ds).1 with v | i <;> rw [hq] at hr <;> cases hr
      have := ih k' i r hq
      omega
    rw [List.length_cons]
    cases k with
    | succ k => exact hpast k d result h
    | zero =>
      simp only [Bus.readFrom] at h
      split at h
      · split at h
        · cases h
          exact ⟨Nat.le_refl _, Nat.succ_pos _⟩
        · exact ⟨Nat.zero_le _, (hpast _ _ _ h).2⟩
        · exact ⟨Nat.zero_le _, (hpast _ _ _ h).2⟩
      · exact ⟨Nat.zero_le _, (hpast _ _ _ h).2⟩

end Sys2Proof.Machine
end

