-- ==== Sys2Proof/Laws/Flags.lean ====
section
/-! SUPPORT. Masking an exact result is the arithmetic of bit vectors (00_scope R7; 42_alu R149). -/

namespace Sys2Proof.Machine

/-- The masked value is the residue modulo 2^16. -/
theorem maskWord_toNat (v : Int) : ((maskWord v).toNat : Int) = v % 65536 := by
  unfold maskWord
  rw [BitVec.toNat_ofInt]
  omega

@[simp] theorem maskWord_word (w : Word) : maskWord w.toNat = w := by
  simp [maskWord]

theorem maskWord_add (a b : Word) : maskWord ((a.toNat : Int) + b.toNat) = a + b := by
  apply BitVec.eq_of_toNat_eq
  have := maskWord_toNat ((a.toNat : Int) + b.toNat)
  rw [BitVec.toNat_add]
  omega

theorem maskWord_sub (a b : Word) : maskWord ((a.toNat : Int) - b.toNat) = a - b := by
  apply BitVec.eq_of_toNat_eq
  have := maskWord_toNat ((a.toNat : Int) - b.toNat)
  rw [BitVec.toNat_sub]
  omega

theorem maskWord_shiftLeft (a : Word) : maskWord (shiftLeft a) = a <<< 1 := by
  apply BitVec.eq_of_toNat_eq
  have := maskWord_toNat (shiftLeft a)
  rw [BitVec.toNat_shiftLeft]
  unfold shiftLeft at *
  omega

theorem maskWord_shiftRight (a : Word) : maskWord (shiftRight a) = a >>> 1 := by
  rw [shiftRight, ← BitVec.toNat_ushiftRight]
  exact maskWord_word _

theorem zeroFlag_iff (v : Word) : zeroFlag v = true ↔ v = 0#16 := by simp [zeroFlag]

theorem positiveFlag_iff (v : Word) : positiveFlag v = true ↔ v.getLsbD 15 = false := by simp [positiveFlag]

end Sys2Proof.Machine
end

