-- ==== Sys2Proof/Laws/State.lean ====
section
/-! SUPPORT. One lemma per field per state update, true by unfolding the update once. -/

namespace Sys2Proof.Machine

/-! ### State.writeAcc -/

@[simp] theorem State.writeAcc_acc (v : Int) (s : State) : (s.writeAcc v).acc = maskWord v := rfl
@[simp] theorem State.writeAcc_zero (v : Int) (s : State) : (s.writeAcc v).zero = zeroFlag (maskWord v) := rfl
@[simp] theorem State.writeAcc_positive (v : Int) (s : State) : (s.writeAcc v).positive = positiveFlag (maskWord v) := rfl
@[simp] theorem State.writeAcc_pc (v : Int) (s : State) : (s.writeAcc v).pc = s.pc := rfl
@[simp] theorem State.writeAcc_active (v : Int) (s : State) : (s.writeAcc v).active = s.active := rfl
@[simp] theorem State.writeAcc_ioRequest (v : Int) (s : State) : (s.writeAcc v).ioRequest = s.ioRequest := rfl
@[simp] theorem State.writeAcc_fault (v : Int) (s : State) : (s.writeAcc v).fault = s.fault := rfl
@[simp] theorem State.writeAcc_devices (v : Int) (s : State) : (s.writeAcc v).devices = s.devices := rfl
@[simp] theorem State.writeAcc_hold (v : Int) (s : State) : (s.writeAcc v).hold = s.hold := rfl
@[simp] theorem State.writeAcc_arrivals (v : Int) (s : State) : (s.writeAcc v).arrivals = s.arrivals := rfl
@[simp] theorem State.writeAcc_params (v : Int) (s : State) : (s.writeAcc v).params = s.params := rfl

/-! ### State.writePc -/

@[simp] theorem State.writePc_acc (a : Nat) (s : State) : (s.writePc a).acc = s.acc := rfl
@[simp] theorem State.writePc_zero (a : Nat) (s : State) : (s.writePc a).zero = s.zero := rfl
@[simp] theorem State.writePc_positive (a : Nat) (s : State) : (s.writePc a).positive = s.positive := rfl
@[simp] theorem State.writePc_pc (a : Nat) (s : State) : (s.writePc a).pc = s.wrapAddress a := rfl
@[simp] theorem State.writePc_active (a : Nat) (s : State) : (s.writePc a).active = s.active := rfl
@[simp] theorem State.writePc_ioRequest (a : Nat) (s : State) : (s.writePc a).ioRequest = s.ioRequest := rfl
@[simp] theorem State.writePc_fault (a : Nat) (s : State) : (s.writePc a).fault = s.fault := rfl
@[simp] theorem State.writePc_devices (a : Nat) (s : State) : (s.writePc a).devices = s.devices := rfl
@[simp] theorem State.writePc_hold (a : Nat) (s : State) : (s.writePc a).hold = s.hold := rfl
@[simp] theorem State.writePc_arrivals (a : Nat) (s : State) : (s.writePc a).arrivals = s.arrivals := rfl
@[simp] theorem State.writePc_params (a : Nat) (s : State) : (s.writePc a).params = s.params := rfl

/-! ### State.halt -/

@[simp] theorem State.halt_acc (s : State) : (s.halt).acc = s.acc := rfl
@[simp] theorem State.halt_zero (s : State) : (s.halt).zero = s.zero := rfl
@[simp] theorem State.halt_positive (s : State) : (s.halt).positive = s.positive := rfl
@[simp] theorem State.halt_pc (s : State) : (s.halt).pc = s.pc := rfl
@[simp] theorem State.halt_active (s : State) : (s.halt).active = false := rfl
@[simp] theorem State.halt_ioRequest (s : State) : (s.halt).ioRequest = s.ioRequest := rfl
@[simp] theorem State.halt_fault (s : State) : (s.halt).fault = s.fault := rfl
@[simp] theorem State.halt_devices (s : State) : (s.halt).devices = s.devices := rfl
@[simp] theorem State.halt_hold (s : State) : (s.halt).hold = s.hold := rfl
@[simp] theorem State.halt_arrivals (s : State) : (s.halt).arrivals = s.arrivals := rfl
@[simp] theorem State.halt_params (s : State) : (s.halt).params = s.params := rfl

/-! ### State.raise -/

@[simp] theorem State.raise_acc (f : Fault) (s : State) : (s.raise f).acc = s.acc := rfl
@[simp] theorem State.raise_zero (f : Fault) (s : State) : (s.raise f).zero = s.zero := rfl
@[simp] theorem State.raise_positive (f : Fault) (s : State) : (s.raise f).positive = s.positive := rfl
@[simp] theorem State.raise_pc (f : Fault) (s : State) : (s.raise f).pc = s.pc := rfl
@[simp] theorem State.raise_active (f : Fault) (s : State) : (s.raise f).active = s.active := rfl
@[simp] theorem State.raise_ioRequest (f : Fault) (s : State) : (s.raise f).ioRequest = s.ioRequest := rfl
@[simp] theorem State.raise_fault (f : Fault) (s : State) : (s.raise f).fault = some f := rfl
@[simp] theorem State.raise_devices (f : Fault) (s : State) : (s.raise f).devices = s.devices := rfl
@[simp] theorem State.raise_hold (f : Fault) (s : State) : (s.raise f).hold = s.hold := rfl
@[simp] theorem State.raise_arrivals (f : Fault) (s : State) : (s.raise f).arrivals = s.arrivals := rfl
@[simp] theorem State.raise_params (f : Fault) (s : State) : (s.raise f).params = s.params := rfl

/-! ### State.suspend -/

@[simp] theorem State.suspend_acc (g : HoldStage) (k : Nat) (s : State) : (s.suspend g k).acc = s.acc := rfl
@[simp] theorem State.suspend_zero (g : HoldStage) (k : Nat) (s : State) : (s.suspend g k).zero = s.zero := rfl
@[simp] theorem State.suspend_positive (g : HoldStage) (k : Nat) (s : State) : (s.suspend g k).positive = s.positive := rfl
@[simp] theorem State.suspend_pc (g : HoldStage) (k : Nat) (s : State) : (s.suspend g k).pc = s.pc := rfl
@[simp] theorem State.suspend_active (g : HoldStage) (k : Nat) (s : State) : (s.suspend g k).active = s.active := rfl
@[simp] theorem State.suspend_ioRequest (g : HoldStage) (k : Nat) (s : State) : (s.suspend g k).ioRequest = s.ioRequest := rfl
@[simp] theorem State.suspend_fault (g : HoldStage) (k : Nat) (s : State) : (s.suspend g k).fault = s.fault := rfl
@[simp] theorem State.suspend_devices (g : HoldStage) (k : Nat) (s : State) : (s.suspend g k).devices = s.devices := rfl
@[simp] theorem State.suspend_hold (g : HoldStage) (k : Nat) (s : State) : (s.suspend g k).hold = some ⟨g, k⟩ := rfl
@[simp] theorem State.suspend_arrivals (g : HoldStage) (k : Nat) (s : State) : (s.suspend g k).arrivals = s.arrivals := rfl
@[simp] theorem State.suspend_params (g : HoldStage) (k : Nat) (s : State) : (s.suspend g k).params = s.params := rfl

/-! ### State.busWrite -/

@[simp] theorem State.busWrite_acc (a : Nat) (v : Word) (s : State) : (s.busWrite a v).acc = s.acc := rfl
@[simp] theorem State.busWrite_zero (a : Nat) (v : Word) (s : State) : (s.busWrite a v).zero = s.zero := rfl
@[simp] theorem State.busWrite_positive (a : Nat) (v : Word) (s : State) : (s.busWrite a v).positive = s.positive := rfl
@[simp] theorem State.busWrite_pc (a : Nat) (v : Word) (s : State) : (s.busWrite a v).pc = s.pc := rfl
@[simp] theorem State.busWrite_active (a : Nat) (v : Word) (s : State) : (s.busWrite a v).active = s.active := rfl
@[simp] theorem State.busWrite_ioRequest (a : Nat) (v : Word) (s : State) : (s.busWrite a v).ioRequest = s.ioRequest := rfl
@[simp] theorem State.busWrite_fault (a : Nat) (v : Word) (s : State) : (s.busWrite a v).fault = s.fault := rfl
@[simp] theorem State.busWrite_devices (a : Nat) (v : Word) (s : State) : (s.busWrite a v).devices = Bus.write a s.ioRequest v s.devices := rfl
@[simp] theorem State.busWrite_hold (a : Nat) (v : Word) (s : State) : (s.busWrite a v).hold = s.hold := rfl
@[simp] theorem State.busWrite_arrivals (a : Nat) (v : Word) (s : State) : (s.busWrite a v).arrivals = s.arrivals := rfl
@[simp] theorem State.busWrite_params (a : Nat) (v : Word) (s : State) : (s.busWrite a v).params = s.params := rfl

/-! ### State.setIoRequest -/

@[simp] theorem State.setIoRequest_acc (s : State) : (s.setIoRequest).acc = s.acc := rfl
@[simp] theorem State.setIoRequest_zero (s : State) : (s.setIoRequest).zero = s.zero := rfl
@[simp] theorem State.setIoRequest_positive (s : State) : (s.setIoRequest).positive = s.positive := rfl
@[simp] theorem State.setIoRequest_pc (s : State) : (s.setIoRequest).pc = s.pc := rfl
@[simp] theorem State.setIoRequest_active (s : State) : (s.setIoRequest).active = s.active := rfl
@[simp] theorem State.setIoRequest_ioRequest (s : State) : (s.setIoRequest).ioRequest = true := rfl
@[simp] theorem State.setIoRequest_fault (s : State) : (s.setIoRequest).fault = s.fault := rfl
@[simp] theorem State.setIoRequest_devices (s : State) : (s.setIoRequest).devices = s.devices := rfl
@[simp] theorem State.setIoRequest_hold (s : State) : (s.setIoRequest).hold = s.hold := rfl
@[simp] theorem State.setIoRequest_arrivals (s : State) : (s.setIoRequest).arrivals = s.arrivals := rfl
@[simp] theorem State.setIoRequest_params (s : State) : (s.setIoRequest).params = s.params := rfl

/-! ### State.clearIoRequest -/

@[simp] theorem State.clearIoRequest_acc (s : State) : (s.clearIoRequest).acc = s.acc := rfl
@[simp] theorem State.clearIoRequest_zero (s : State) : (s.clearIoRequest).zero = s.zero := rfl
@[simp] theorem State.clearIoRequest_positive (s : State) : (s.clearIoRequest).positive = s.positive := rfl
@[simp] theorem State.clearIoRequest_pc (s : State) : (s.clearIoRequest).pc = s.pc := rfl
@[simp] theorem State.clearIoRequest_active (s : State) : (s.clearIoRequest).active = s.active := rfl
@[simp] theorem State.clearIoRequest_ioRequest (s : State) : (s.clearIoRequest).ioRequest = false := rfl
@[simp] theorem State.clearIoRequest_fault (s : State) : (s.clearIoRequest).fault = s.fault := rfl
@[simp] theorem State.clearIoRequest_devices (s : State) : (s.clearIoRequest).devices = s.devices := rfl
@[simp] theorem State.clearIoRequest_hold (s : State) : (s.clearIoRequest).hold = s.hold := rfl
@[simp] theorem State.clearIoRequest_arrivals (s : State) : (s.clearIoRequest).arrivals = s.arrivals := rfl
@[simp] theorem State.clearIoRequest_params (s : State) : (s.clearIoRequest).params = s.params := rfl

/-! ### State.portWrite -/

@[simp] theorem State.portWrite_acc (p : Port) (v : Word) (s : State) : (s.portWrite p v).acc = s.acc := rfl
@[simp] theorem State.portWrite_zero (p : Port) (v : Word) (s : State) : (s.portWrite p v).zero = s.zero := rfl
@[simp] theorem State.portWrite_positive (p : Port) (v : Word) (s : State) : (s.portWrite p v).positive = s.positive := rfl
@[simp] theorem State.portWrite_pc (p : Port) (v : Word) (s : State) : (s.portWrite p v).pc = s.pc := rfl
@[simp] theorem State.portWrite_active (p : Port) (v : Word) (s : State) : (s.portWrite p v).active = s.active := rfl
@[simp] theorem State.portWrite_ioRequest (p : Port) (v : Word) (s : State) : (s.portWrite p v).ioRequest = false := rfl
@[simp] theorem State.portWrite_fault (p : Port) (v : Word) (s : State) : (s.portWrite p v).fault = s.fault := rfl
@[simp] theorem State.portWrite_devices (p : Port) (v : Word) (s : State) : (s.portWrite p v).devices = Bus.write p.toNat true v s.devices := rfl
@[simp] theorem State.portWrite_hold (p : Port) (v : Word) (s : State) : (s.portWrite p v).hold = s.hold := rfl
@[simp] theorem State.portWrite_arrivals (p : Port) (v : Word) (s : State) : (s.portWrite p v).arrivals = s.arrivals := rfl
@[simp] theorem State.portWrite_params (p : Port) (v : Word) (s : State) : (s.portWrite p v).params = s.params := rfl

/-! ### State.loadWord -/

@[simp] theorem State.loadWord_acc (a : Nat) (v : Word) (s : State) : (s.loadWord a v).acc = s.acc := rfl
@[simp] theorem State.loadWord_zero (a : Nat) (v : Word) (s : State) : (s.loadWord a v).zero = s.zero := rfl
@[simp] theorem State.loadWord_positive (a : Nat) (v : Word) (s : State) : (s.loadWord a v).positive = s.positive := rfl
@[simp] theorem State.loadWord_pc (a : Nat) (v : Word) (s : State) : (s.loadWord a v).pc = s.pc := rfl
@[simp] theorem State.loadWord_active (a : Nat) (v : Word) (s : State) : (s.loadWord a v).active = s.active := rfl
@[simp] theorem State.loadWord_ioRequest (a : Nat) (v : Word) (s : State) : (s.loadWord a v).ioRequest = s.ioRequest := rfl
@[simp] theorem State.loadWord_fault (a : Nat) (v : Word) (s : State) : (s.loadWord a v).fault = s.fault := rfl
@[simp] theorem State.loadWord_devices (a : Nat) (v : Word) (s : State) : (s.loadWord a v).devices = Bus.write a false v s.devices := rfl
@[simp] theorem State.loadWord_hold (a : Nat) (v : Word) (s : State) : (s.loadWord a v).hold = s.hold := rfl
@[simp] theorem State.loadWord_arrivals (a : Nat) (v : Word) (s : State) : (s.loadWord a v).arrivals = s.arrivals := rfl
@[simp] theorem State.loadWord_params (a : Nat) (v : Word) (s : State) : (s.loadWord a v).params = s.params := rfl

/-! ### State.awake -/

@[simp] theorem State.awake_acc (s : State) : (s.awake).acc = s.acc := rfl
@[simp] theorem State.awake_zero (s : State) : (s.awake).zero = s.zero := rfl
@[simp] theorem State.awake_positive (s : State) : (s.awake).positive = s.positive := rfl
@[simp] theorem State.awake_pc (s : State) : (s.awake).pc = s.pc := rfl
@[simp] theorem State.awake_active (s : State) : (s.awake).active = true := rfl
@[simp] theorem State.awake_ioRequest (s : State) : (s.awake).ioRequest = false := rfl
@[simp] theorem State.awake_fault (s : State) : (s.awake).fault = none := rfl
@[simp] theorem State.awake_devices (s : State) : (s.awake).devices = s.devices := rfl
@[simp] theorem State.awake_hold (s : State) : (s.awake).hold = none := rfl
@[simp] theorem State.awake_arrivals (s : State) : (s.awake).arrivals = s.arrivals := rfl
@[simp] theorem State.awake_params (s : State) : (s.awake).params = s.params := rfl

/-! ### State.registerDevice -/

@[simp] theorem State.registerDevice_acc (d : Device) (s : State) : (s.registerDevice d).acc = s.acc := rfl
@[simp] theorem State.registerDevice_zero (d : Device) (s : State) : (s.registerDevice d).zero = s.zero := rfl
@[simp] theorem State.registerDevice_positive (d : Device) (s : State) : (s.registerDevice d).positive = s.positive := rfl
@[simp] theorem State.registerDevice_pc (d : Device) (s : State) : (s.registerDevice d).pc = s.pc := rfl
@[simp] theorem State.registerDevice_active (d : Device) (s : State) : (s.registerDevice d).active = s.active := rfl
@[simp] theorem State.registerDevice_ioRequest (d : Device) (s : State) : (s.registerDevice d).ioRequest = s.ioRequest := rfl
@[simp] theorem State.registerDevice_fault (d : Device) (s : State) : (s.registerDevice d).fault = s.fault := rfl
@[simp] theorem State.registerDevice_devices (d : Device) (s : State) : (s.registerDevice d).devices = Bus.register d s.devices := rfl
@[simp] theorem State.registerDevice_hold (d : Device) (s : State) : (s.registerDevice d).hold = s.hold := rfl
@[simp] theorem State.registerDevice_arrivals (d : Device) (s : State) : (s.registerDevice d).arrivals = s.arrivals := rfl
@[simp] theorem State.registerDevice_params (d : Device) (s : State) : (s.registerDevice d).params = s.params := rfl

/-! ### State.resetCpu -/

@[simp] theorem State.resetCpu_acc (s : State) : (s.resetCpu).acc = 0#16 := rfl
@[simp] theorem State.resetCpu_zero (s : State) : (s.resetCpu).zero = true := rfl
@[simp] theorem State.resetCpu_positive (s : State) : (s.resetCpu).positive = true := rfl
@[simp] theorem State.resetCpu_pc (s : State) : (s.resetCpu).pc = 0 := rfl
@[simp] theorem State.resetCpu_active (s : State) : (s.resetCpu).active = true := rfl
@[simp] theorem State.resetCpu_ioRequest (s : State) : (s.resetCpu).ioRequest = false := rfl
@[simp] theorem State.resetCpu_fault (s : State) : (s.resetCpu).fault = none := rfl
@[simp] theorem State.resetCpu_devices (s : State) : (s.resetCpu).devices = s.devices := rfl
@[simp] theorem State.resetCpu_hold (s : State) : (s.resetCpu).hold = none := rfl
@[simp] theorem State.resetCpu_arrivals (s : State) : (s.resetCpu).arrivals = s.arrivals := rfl
@[simp] theorem State.resetCpu_params (s : State) : (s.resetCpu).params = s.params := rfl

/-! ### State.busRead -/

@[simp] theorem State.busRead_acc (a : Nat) (s : State) : ((s.busRead a).2).acc = s.acc := rfl
@[simp] theorem State.busRead_zero (a : Nat) (s : State) : ((s.busRead a).2).zero = s.zero := rfl
@[simp] theorem State.busRead_positive (a : Nat) (s : State) : ((s.busRead a).2).positive = s.positive := rfl
@[simp] theorem State.busRead_pc (a : Nat) (s : State) : ((s.busRead a).2).pc = s.pc := rfl
@[simp] theorem State.busRead_active (a : Nat) (s : State) : ((s.busRead a).2).active = s.active := rfl
@[simp] theorem State.busRead_ioRequest (a : Nat) (s : State) : ((s.busRead a).2).ioRequest = s.ioRequest := rfl
@[simp] theorem State.busRead_fault (a : Nat) (s : State) : ((s.busRead a).2).fault = s.fault := rfl
@[simp] theorem State.busRead_devices (a : Nat) (s : State) : ((s.busRead a).2).devices = (Bus.readFrom (effectiveAddress a s.ioRequest) s.ioRequest s.resumePoint none s.devices).2 := rfl
@[simp] theorem State.busRead_hold (a : Nat) (s : State) : ((s.busRead a).2).hold = none := rfl
@[simp] theorem State.busRead_arrivals (a : Nat) (s : State) : ((s.busRead a).2).arrivals = s.arrivals := rfl
@[simp] theorem State.busRead_params (a : Nat) (s : State) : ((s.busRead a).2).params = s.params := rfl

/-! ### State.environmentActs -/

@[simp] theorem State.environmentActs_acc (s : State) : s.environmentActs.acc = s.acc := by
  unfold State.environmentActs; split <;> rfl
@[simp] theorem State.environmentActs_zero (s : State) : s.environmentActs.zero = s.zero := by
  unfold State.environmentActs; split <;> rfl
@[simp] theorem State.environmentActs_positive (s : State) : s.environmentActs.positive = s.positive := by
  unfold State.environmentActs; split <;> rfl
@[simp] theorem State.environmentActs_pc (s : State) : s.environmentActs.pc = s.pc := by
  unfold State.environmentActs; split <;> rfl
@[simp] theorem State.environmentActs_active (s : State) : s.environmentActs.active = s.active := by
  unfold State.environmentActs; split <;> rfl
@[simp] theorem State.environmentActs_ioRequest (s : State) : s.environmentActs.ioRequest = s.ioRequest := by
  unfold State.environmentActs; split <;> rfl
@[simp] theorem State.environmentActs_fault (s : State) : s.environmentActs.fault = s.fault := by
  unfold State.environmentActs; split <;> rfl
@[simp] theorem State.environmentActs_hold (s : State) : s.environmentActs.hold = s.hold := by
  unfold State.environmentActs; split <;> rfl
@[simp] theorem State.environmentActs_params (s : State) : s.environmentActs.params = s.params := by
  unfold State.environmentActs; split <;> rfl

/-! ### Addresses at the width of PC -/

theorem State.wrapAddress_lt (n : Nat) (s : State) : s.wrapAddress n < 2 ^ s.params.addrBits :=
  Nat.mod_lt _ (Nat.two_pow_pos _)

/-- An operand field is its own address where `ADDR_BITS` is at least the field's width (30_encoding R71). -/
theorem State.addressOf_eq (x : Operand) (s : State) (h : 12 ≤ s.params.addrBits) : s.addressOf x = x.toNat :=
  Nat.mod_eq_of_lt (Nat.lt_of_lt_of_le x.isLt (Nat.pow_le_pow_right (by decide) h))

@[simp] theorem State.busRead_wrapAddress (a n : Nat) (s : State) : (s.busRead a).2.wrapAddress n = s.wrapAddress n := rfl

@[simp] theorem State.environmentActs_wrapAddress (n : Nat) (s : State) :
    s.environmentActs.wrapAddress n = s.wrapAddress n := by simp [State.wrapAddress]

@[simp] theorem State.environmentActs_addressOf (x : Operand) (s : State) :
    s.environmentActs.addressOf x = s.addressOf x := by simp [State.addressOf]

/-! ### The first component of a bus read -/

theorem State.busRead_fst (a : Nat) (s : State) :
    (s.busRead a).1 = (Bus.readFrom (effectiveAddress a s.ioRequest) s.ioRequest s.resumePoint none s.devices).1 := rfl

end Sys2Proof.Machine
end

