-- ==== Sys2Proof/Laws/Ops.lean ====
section
/-! SUPPORT. Once for each shared operation: everything it can come to. The statements about instructions cite these
and do not unfold the operations. -/

namespace Sys2Proof.Machine

/-- A bus read changes the devices and ends the hold; nothing else. -/
theorem State.busRead_snd (a : Nat) (s : State) :
    (s.busRead a).2 = { s with devices := (s.busRead a).2.devices, hold := none } := rfl

theorem State.busRead_eq (a : Nat) (s t : State) (r : ReadResult) (h : s.busRead a = (r, t)) :
    t = { s with devices := t.devices, hold := none } := by
  have := s.busRead_snd a
  rw [h] at this
  exact this

/-- A bus read leaves every storage cell. -/
theorem State.busRead_cell (a : Nat) (s : State) (k b : Nat) : (s.busRead a).2.cell k b = s.cell k b :=
  Bus.readFrom_cell _ _ _ _ _ k b

/-- What a port read comes to: the read with io-request set, and the flag clear after an answer, still set in a hold
(44_io R172). -/
theorem State.portRead_cases (p : Port) (s : State) :
    (∃ v t, s.setIoRequest.busRead p.toNat = (.answered v, t) ∧ s.portRead p = (.answered v, t.clearIoRequest)) ∨
    (∃ k t, s.setIoRequest.busRead p.toNat = (.held k, t) ∧ s.portRead p = (.held k, t)) := by
  unfold State.portRead
  split
  · rename_i v t h
    exact .inl ⟨v, t, h, rfl⟩
  · rename_i k t h
    exact .inr ⟨k, t, h, rfl⟩

/-- What an instruction that reads comes to: a hold, the fatal condition, or its use of the Word. -/
theorem State.useRead_elim {P : State → Prop} (i : Instr) (phase : Phase) (addr : Nat) (use : Word → State → State)
    (r : ReadResult × State)
    (held : ∀ k, r.1 = .held k → P (r.2.suspend (.execute i) k))
    (noData : r.1 = .answered none → P (r.2.raise (.noData phase addr)))
    (word : ∀ v, r.1 = .answered (some v) → P (use v r.2)) :
    P (State.useRead i phase addr use r) := by
  obtain ⟨r, t⟩ := r
  match r, held, noData, word with
  | .held k, held, _, _ => exact held k rfl
  | .answered none, _, noData, _ => exact noData rfl
  | .answered (some v), _, _, word => exact word v rfl

/-- What fetching and decoding come to: a hold, NoData, an opcode without a row, or an instruction
(40_cycle R110, R118). -/
theorem State.fetchDecode_cases (s : State) :
    (∃ k t, s.busRead s.pc = (.held k, t) ∧ s.fetchDecode = .stopped (t.suspend .fetch k)) ∨
    (∃ t, s.busRead s.pc = (.answered none, t) ∧
      s.fetchDecode = .stopped ((t.writePc (s.pc + 1)).raise (.noData .fetch s.pc))) ∨
    (∃ w t, s.busRead s.pc = (.answered (some w), t) ∧ decode s.params.opcodeMap w = .illegalOpcode w ∧
      s.fetchDecode = .stopped ((t.writePc (s.pc + 1)).raise (.illegalOpcode w))) ∨
    (∃ w t i, s.busRead s.pc = (.answered (some w), t) ∧ decode s.params.opcodeMap w = .instr i ∧
      s.fetchDecode = .ready i (t.writePc (s.pc + 1))) := by
  unfold State.fetchDecode
  split
  · rename_i k t h
    exact .inl ⟨k, t, h, rfl⟩
  · rename_i t h
    exact .inr (.inl ⟨t, h, rfl⟩)
  · rename_i w t h
    have hd : ∀ w', decode s.params.opcodeMap w = .illegalOpcode w' → w' = w := by
      intro w' hw'
      unfold decode at hw'
      split at hw' <;> simp_all
    split
    · rename_i w' hw'
      obtain rfl := hd w' hw'
      exact .inr (.inr (.inl ⟨w', t, h, hw', rfl⟩))
    · rename_i i hi
      exact .inr (.inr (.inr ⟨w, t, i, h, hi, rfl⟩))

/-- While blocked, the environment changes nothing but the blocking device and the model's own counter. -/
theorem State.environmentActs_eq (s : State) :
    s.environmentActs = { s with devices := s.environmentActs.devices, arrivals := s.environmentActs.arrivals } := by
  unfold State.environmentActs
  split <;> rfl

theorem State.environmentActs_forall₂ (R : Device → Device → Prop) (s : State) (hrefl : ∀ d, R d d)
    (hf : ∀ d bytes, R d (d.withKind (d.kind.await bytes))) : List.Forall₂ R s.devices s.environmentActs.devices := by
  unfold State.environmentActs
  split
  · exact modify_forall₂ R _ hrefl (fun d => hf d _) _ _
  · exact List.forall₂_same.2 fun d _ => hrefl d

/-- Every instruction answers a next state. -/
theorem exec_next (i : Instr) (s : State) : ∃ t, exec i s = .next t := by
  cases i <;> exact ⟨_, rfl⟩

end Sys2Proof.Machine
end

