-- ==== Sys2Proof/Laws/Step.lean ====
section
/-! SUPPORT. Once for the step: which of its cases a state is in, and what each comes to. -/

namespace Sys2Proof.Machine

/-- A running machine is active and has no fault. -/
theorem State.running_iff (s : State) : s.running = true ↔ s.active = true ∧ s.fault = none := by
  simp [State.running]

/-- A halted or faulted machine stays as it is. -/
theorem step_of_not_running (s : State) (h : s.running = false) : step s = .next s := by
  unfold step
  split
  · rfl
  · rename_i hf
    split
    · rfl
    · simp_all [State.running]

/-- A running machine with no read on hold fetches. -/
theorem step_of_running (s : State) (h : s.running = true) (hh : s.hold = none) : step s = stepInstr s := by
  obtain ⟨ha, hf⟩ := s.running_iff.1 h
  simp [step, ha, hf, hh]

/-- A machine with a fetch on hold goes on with it. -/
theorem step_of_fetch_hold (s : State) (k : Nat) (h : s.running = true) (hh : s.hold = some ⟨.fetch, k⟩) :
    step s = stepInstr s.environmentActs := by
  obtain ⟨ha, hf⟩ := s.running_iff.1 h
  simp [step, ha, hf, hh]

/-- A machine with an instruction's read on hold goes on with it. -/
theorem step_of_execute_hold (s : State) (i : Instr) (k : Nat) (h : s.running = true)
    (hh : s.hold = some ⟨.execute i, k⟩) : step s = exec i s.environmentActs := by
  obtain ⟨ha, hf⟩ := s.running_iff.1 h
  simp [step, ha, hf, hh]

/-- The cases of a step that answers a next state. -/
theorem step_cases {s t : State} (h : step s = .next t) :
    (s.running = false ∧ t = s) ∨
    (s.running = true ∧ s.hold = none ∧ stepInstr s = .next t) ∨
    (∃ k, s.running = true ∧ s.hold = some ⟨.fetch, k⟩ ∧ stepInstr s.environmentActs = .next t) ∨
    (∃ i k, s.running = true ∧ s.hold = some ⟨.execute i, k⟩ ∧ exec i s.environmentActs = .next t) := by
  cases hr : s.running with
  | false =>
    rw [step_of_not_running s hr] at h
    injection h with h
    exact .inl ⟨rfl, h.symm⟩
  | true =>
    rcases hh : s.hold with - | ⟨stage, k⟩
    · exact .inr (.inl ⟨rfl, rfl, step_of_running s hr hh ▸ h⟩)
    · cases stage with
      | fetch => exact .inr (.inr (.inl ⟨k, rfl, rfl, step_of_fetch_hold s k hr hh ▸ h⟩))
      | execute i => exact .inr (.inr (.inr ⟨i, k, rfl, rfl, step_of_execute_hold s i k hr hh ▸ h⟩))

/-- The cases of fetch, decode and execute. -/
theorem stepInstr_cases {s t : State} (h : stepInstr s = .next t) :
    (∃ k u, s.busRead s.pc = (.held k, u) ∧ t = u.suspend .fetch k) ∨
    (∃ u, s.busRead s.pc = (.answered none, u) ∧
      t = (u.writePc (s.pc + 1)).raise (.noData .fetch s.pc)) ∨
    (∃ w u, s.busRead s.pc = (.answered (some w), u) ∧ decode s.params.opcodeMap w = .illegalOpcode w ∧
      t = (u.writePc (s.pc + 1)).raise (.illegalOpcode w)) ∨
    (∃ w u i, s.busRead s.pc = (.answered (some w), u) ∧ decode s.params.opcodeMap w = .instr i ∧
      exec i (u.writePc (s.pc + 1)) = .next t) := by
  unfold stepInstr at h
  rcases s.fetchDecode_cases with ⟨k, u, h1, h2⟩ | ⟨u, h1, h2⟩ | ⟨w, u, h1, h3, h2⟩ | ⟨w, u, i, h1, h3, h2⟩ <;>
    rw [h2] at h
  · injection h with h
    exact .inl ⟨k, u, h1, h.symm⟩
  · injection h with h
    exact .inr (.inl ⟨u, h1, h.symm⟩)
  · injection h with h
    exact .inr (.inr (.inl ⟨w, u, h1, h3, h.symm⟩))
  · exact .inr (.inr (.inr ⟨w, u, i, h1, h3, h⟩))

/-! ### What a bus read and the environment keep -/

theorem State.busRead_memoryWf (a : Nat) (s : State) (h : s.memoryWf) : (s.busRead a).2.memoryWf :=
  Bus.readFrom_wf _ _ _ _ _ h

theorem State.busRead_samePlatform (a : Nat) (s : State) : s.samePlatform (s.busRead a).2 :=
  ⟨Bus.readFrom_claims _ _ _ _ _, rfl⟩

theorem State.environmentActs_memoryWf (s : State) (h : s.memoryWf) : s.environmentActs.memoryWf :=
  wf_of_forall₂ (s.environmentActs_forall₂ (fun d e => d.wf → e.wf) (fun _ => id) fun d b => d.await_wf b) h

theorem State.environmentActs_claims (s : State) :
    s.devices.map Device.claims = s.environmentActs.devices.map Device.claims :=
  claims_eq_of_forall₂
    (s.environmentActs_forall₂ (fun d e => e.claims = d.claims) (fun _ => rfl) fun _ _ => rfl)

theorem State.environmentActs_cell (s : State) (k b : Nat) : s.environmentActs.cell k b = s.cell k b :=
  cell_of_forall₂
    (s.environmentActs_forall₂ (fun d e => ∀ b, e.cell b = d.cell b) (fun _ _ => rfl) fun d bytes b =>
      d.await_cell bytes b) k b

/-! ### The instructions that read -/

/-- The shape the seven reading instructions share: a read, then ACC from the Word and the old ACC. -/
theorem State.useRead_writeAcc_cases (i : Instr) (phase : Phase) (addr : Nat) (g : Word → Word → Int)
    (r : ReadResult × State) :
    (∃ k, r.1 = .held k ∧
      State.useRead i phase addr (fun v t => t.writeAcc (g v t.acc)) r = r.2.suspend (.execute i) k) ∨
    (r.1 = .answered none ∧
      State.useRead i phase addr (fun v t => t.writeAcc (g v t.acc)) r = r.2.raise (.noData phase addr)) ∨
    (∃ v, r.1 = .answered (some v) ∧
      State.useRead i phase addr (fun v t => t.writeAcc (g v t.acc)) r = r.2.writeAcc (g v r.2.acc)) := by
  obtain ⟨r, t⟩ := r
  match r with
  | .held k => exact .inl ⟨k, rfl, rfl⟩
  | .answered none => exact .inr (.inl ⟨rfl, rfl⟩)
  | .answered (some v) => exact .inr (.inr ⟨v, rfl, rfl⟩)

end Sys2Proof.Machine
end

