-- ==== Sys2Proof/Laws/Run.lean ====
section
/-! SUPPORT. Rounds of `run()` put together, a run without end, and how a read on hold goes on. -/

namespace Sys2Proof.Machine

/-- Rounds after rounds are rounds. -/
theorem runFor_add {n : Nat} (m : Nat) {s t : State} (h : runFor n s = .next t) : runFor (n + m) s = runFor m t := by
  induction n generalizing s with
  | zero =>
    injection h with h
    rw [h, Nat.zero_add]
  | succ n ih =>
    rw [Nat.add_right_comm]
    simp only [runFor] at h ⊢
    split at h
    · rename_i hr
      rw [if_pos hr]
      split at h
      · exact ih h
      · cases h
      · cases h
    · rename_i hr
      injection h with h
      subst h
      cases m <;> simp [runFor, hr]

/-- A running machine that a step leaves as it is, between two instructions, runs for ever. -/
theorem diverging_of_fixed {s : State} (hr : s.running = true) (hs : step s = .next s) (hh : s.hold = none) :
    s.runEnds .diverging := by
  have hrun : ∀ n, runFor n s = .next s := by
    intro n
    induction n with
    | zero => rfl
    | succ n ih => simp [runFor, hr, hs, ih]
  obtain ⟨ha, hf⟩ := s.running_iff.1 hr
  exact ⟨fun m => ⟨s, hrun m, hr⟩, fun n => ⟨n, s, Nat.le_refl n, hrun n, by simp [State.status, ha, hf, hh]⟩⟩

/-! ### A read on hold goes forward -/

/-- The instruction a hold inside an execute phase records (notes/assumptions/23.md). -/
def Instr.held : Instr → Instr
  | .inp _ => .inp 0#12
  | i => i

/-- A read that is held is held at a device of the list, at or after its starting place. -/
theorem State.busRead_held (a k : Nat) (s : State) (h : (s.busRead a).1 = .held k) :
    s.resumePoint ≤ k ∧ k < s.devices.length := Bus.readFrom_held _ _ _ _ _ _ h

/-- What an instruction leaves of a hold: one that reads nothing leaves it; one that reads ends it, or is held at or
after the place its read starts from. -/
theorem exec_hold_cases {i : Instr} {s t : State} (h : exec i s = .next t) :
    (readsBus i = false ∧ t.hold = s.hold) ∨ t.hold = none ∨
    ∃ k, t.hold = some ⟨.execute (Instr.held i), k⟩ ∧ s.resumePoint ≤ k ∧ k < s.devices.length := by
  have reading : ∀ (j : Instr) (phase : Phase) (addr : Nat) (g : Word → Word → Int) (r : ReadResult × State),
      r.2.hold = none → (∀ k, r.1 = .held k → s.resumePoint ≤ k ∧ k < s.devices.length) →
      State.useRead j phase addr (fun v t => t.writeAcc (g v t.acc)) r = t →
      t.hold = none ∨ ∃ k, t.hold = some ⟨.execute j, k⟩ ∧ s.resumePoint ≤ k ∧ k < s.devices.length := by
    intro j phase addr g r hr hk ht
    rcases State.useRead_writeAcc_cases j phase addr g r with ⟨k, h1, h2⟩ | ⟨-, h2⟩ | ⟨v, -, h2⟩ <;>
      rw [h2] at ht <;> subst ht
    · exact .inr ⟨k, rfl, hk k h1⟩
    · exact .inl hr
    · exact .inl hr
  cases i <;> injection h with h
  case halt | not | shl | shr | store | out | bra => subst h; exact .inl ⟨rfl, rfl⟩
  case brp | brz => subst h; left; refine ⟨rfl, ?_⟩; split <;> rfl
  case load x => exact .inr (reading _ _ _ (fun v _ => v.toNat) (s.busRead _) rfl (fun k => s.busRead_held _ k) h)
  case add x =>
    exact .inr (reading _ _ _ (fun m a => (a.toNat : Int) + m.toNat) (s.busRead _) rfl (fun k => s.busRead_held _ k) h)
  case sub x =>
    exact .inr (reading _ _ _ (fun m a => (a.toNat : Int) - m.toNat) (s.busRead _) rfl (fun k => s.busRead_held _ k) h)
  case and x =>
    exact .inr (reading _ _ _ (fun m a => (a &&& m).toNat) (s.busRead _) rfl (fun k => s.busRead_held _ k) h)
  case or x =>
    exact .inr (reading _ _ _ (fun m a => (a ||| m).toNat) (s.busRead _) rfl (fun k => s.busRead_held _ k) h)
  case xor x =>
    exact .inr (reading _ _ _ (fun m a => (a ^^^ m).toNat) (s.busRead _) rfl (fun k => s.busRead_held _ k) h)
  case inp x =>
    have hp : (s.portRead s.params.inPort).2.hold = none ∧ ∀ k, (s.portRead s.params.inPort).1 = .held k →
        s.resumePoint ≤ k ∧ k < s.devices.length := by
      rcases s.portRead_cases s.params.inPort with ⟨v, u, h1, h2⟩ | ⟨j, u, h1, h2⟩ <;>
        rw [h2, State.busRead_eq _ _ _ _ h1]
      · exact ⟨rfl, fun k hk => by cases hk⟩
      · refine ⟨rfl, fun k hk => ?_⟩
        cases hk
        exact s.setIoRequest.busRead_held s.params.inPort.toNat j (by rw [h1])
    exact .inr (reading _ _ _ (fun v _ => (lowByte v).toNat) _ hp.1 hp.2 h)

/-- How much of an instruction a hold may still go through, among `n` devices: a fetch comes before the execute phase,
and a read goes through the devices in order. -/
def Hold.rank (h : Hold) (n : Nat) : Nat :=
  match h.stage with
  | .fetch => 3 * n + 2 + (n - h.device)
  | .execute i => 2 * (n - h.device) + if Instr.held i = i then 0 else 1

/-- One step of a machine on hold leaves the same hold, none, or one of lower rank: an instruction waits for only
finitely many devices. -/
theorem hold_progress {s t : State} {h h' : Hold} (hr : s.running = true) (hh : s.hold = some h)
    (hs : step s = .next t) (ht : t.hold = some h') :
    h' = h ∨ h'.rank s.devices.length < h.rank s.devices.length := by
  obtain ⟨stage, k₀⟩ := h
  have hres : s.environmentActs.resumePoint = k₀ := by simp [State.resumePoint, hh]
  have hlen : s.environmentActs.devices.length = s.devices.length := by
    simpa using (congrArg List.length s.environmentActs_claims).symm
  have hheld : ∀ i : Instr, Instr.held (Instr.held i) = Instr.held i := fun i => by cases i <;> rfl
  cases stage with
  | fetch =>
    rw [step_of_fetch_hold s k₀ hr hh] at hs
    rcases stepInstr_cases hs with ⟨k, u, h1, rfl⟩ | ⟨u, h1, rfl⟩ | ⟨w, u, h1, -, rfl⟩ | ⟨w, u, i, h1, -, h2⟩ <;>
      have hu := State.busRead_eq _ _ _ _ h1
    · have hb := s.environmentActs.busRead_held _ k (by rw [h1])
      rw [hres, hlen] at hb
      injection ht with ht
      subst ht
      by_cases hk : k = k₀
      · exact .inl (by rw [hk])
      · exact .inr (by simp only [Hold.rank]; omega)
    · rw [hu] at ht; cases ht
    · rw [hu] at ht; cases ht
    · have hul : u.devices.length = s.devices.length := by
        have := congrArg List.length (s.environmentActs.busRead_samePlatform s.environmentActs.pc).1
        rw [h1] at this
        simpa [hlen] using this.symm
      rcases exec_hold_cases h2 with ⟨-, h3⟩ | h3 | ⟨k, h3, -, hk⟩ <;> rw [ht] at h3
      · rw [State.writePc_hold, hu] at h3; cases h3
      · cases h3
      · injection h3 with h3
        subst h3
        rw [State.writePc_devices, hul] at hk
        exact .inr (by simp only [Hold.rank, hheld, if_true]; omega)
  | execute i =>
    rw [step_of_execute_hold s i k₀ hr hh] at hs
    rcases exec_hold_cases hs with ⟨-, h3⟩ | h3 | ⟨k, h3, hk₀, hk⟩ <;> rw [ht] at h3
    · rw [State.environmentActs_hold, hh] at h3
      injection h3 with h3
      exact .inl h3
    · cases h3
    · injection h3 with h3
      subst h3
      rw [hres] at hk₀
      rw [hlen] at hk
      simp only [Hold.rank, hheld, if_true]
      by_cases hi : Instr.held i = i
      · by_cases hkk : k = k₀
        · exact .inl (by rw [hi, hkk])
        · exact .inr (by rw [if_pos hi]; omega)
      · exact .inr (by rw [if_neg hi]; omega)

end Sys2Proof.Machine
end

