-- ==== Sys2Proof/Tests/Slice0.lean ====
section
/-! SUPPORT. The model's own tests: the smoke test of each well-formedness check, decoding of Words written out from
30_encoding R73, one step at a time of the vectors of 95_test_vectors, and a witness for the hypotheses of every
statement that has any. Expected values are those of spec/, not the model's own answers. -/

namespace Sys2Proof.Tests

open Sys2Proof Sys2Proof.Machine

/-! ### Small states -/

/-- The platform of 92 D12 with a RAM of a size, its cells, and the console's pending input. -/
def platform (size : Nat) (cells : Memory) (input : List Byte) : List Device :=
  [⟨[⟨false, 0, size⟩], .storage cells⟩,
    ⟨[⟨true, 0x00, 1⟩, ⟨true, 0x01, 1⟩], .console 0x00#8 0x01#8 input []⟩]

/-- A machine with a value in ACC (and its flags), a PC, and a platform. -/
def machine (acc : Word) (pc : Nat) (devices : List Device) : State :=
  { State.reset.writeAcc acc.toNat with pc := pc, devices := devices }

/-- The next state of an outcome. -/
def nextOf (o : Host.Outcome State Fault Refusal) : Option State :=
  match o with
  | .next s => some s
  | .fault _ => none
  | .refused _ => none

/-- ACC, Z and P of an outcome's next state. -/
def accOf (o : Host.Outcome State Fault Refusal) : Option (Word × Bool × Bool) :=
  (nextOf o).map fun s => (s.acc, s.zero, s.positive)

/-- One step with a Word at PC and one data Word at 0x00A (95_test_vectors 2.3). -/
def aluStep (acc w m : Word) : Option (Word × Bool × Bool) :=
  accOf (step (machine acc 0x000 (platform 4096 (Memory.write (Memory.write [] 0x000 w) 0x00A m) [])))

/-! ### Well-formedness smoke tests: an ill-formed term for each check -/

theorem test_opcode_twice_ill_formed : ¬ OpcodeMap.wf [(0x0#4, .halt), (0x0#4, .load)] := by decide
theorem test_mnemonic_twice_ill_formed : ¬ OpcodeMap.wf [(0x0#4, .halt), (0x1#4, .halt)] := by decide
theorem test_partial_map_not_full : ¬ OpcodeMap.full (Config.opcodeMap.drop 1) := by decide
theorem test_instr_without_row_ill_formed : ¬ Instr.wf (Config.opcodeMap.drop 1) (.halt 0x000#12) := by decide
theorem test_wide_operand_invalid : ¬ RawInstr.valid ⟨.load, 0x1000⟩ := by decide
theorem test_unsorted_memory_ill_formed : ¬ Memory.wf [(2, 5#16), (1, 5#16)] := by decide
theorem test_listed_zero_ill_formed : ¬ Memory.wf [(1, 0#16)] := by decide
theorem test_opcode_map_wf : Config.opcodeMap.wf ∧ Config.opcodeMap.full := by decide

/-! ### Decoding: Words written out from 30_encoding R73, and 95_test_vectors 2.7 -/

theorem test_decode_halt : decodeTableWord 16 0b0000101010111100 = some (.halt 0xABC#12) := by decide
theorem test_decode_load : decodeTableWord 16 0b0001000000000010 = some (.load 0x002#12) := by decide
theorem test_decode_store : decodeTableWord 16 0b0010000100000000 = some (.store 0x100#12) := by decide
theorem test_decode_add : decodeTableWord 16 0b0011000000001010 = some (.add 0x00A#12) := by decide
theorem test_decode_sub : decodeTableWord 16 0b0100000000001100 = some (.sub 0x00C#12) := by decide
theorem test_decode_and : decodeTableWord 16 0b0101000000001010 = some (.and 0x00A#12) := by decide
theorem test_decode_or : decodeTableWord 16 0b0110000000001010 = some (.or 0x00A#12) := by decide
theorem test_decode_xor : decodeTableWord 16 0b0111000000001010 = some (.xor 0x00A#12) := by decide
theorem test_decode_not : decodeTableWord 16 0b1000111111111111 = some (.not 0xFFF#12) := by decide
theorem test_decode_shl : decodeTableWord 16 0b1001000000000000 = some (.shl 0x000#12) := by decide
theorem test_decode_shr : decodeTableWord 16 0b1010010110100101 = some (.shr 0x5A5#12) := by decide
theorem test_decode_bra : decodeTableWord 16 0b1011111111111111 = some (.bra 0xFFF#12) := by decide
theorem test_decode_brp : decodeTableWord 16 0b1100000100100011 = some (.brp 0x123#12) := by decide
theorem test_decode_brz : decodeTableWord 16 0b1101000000010000 = some (.brz 0x010#12) := by decide
theorem test_decode_inp : decodeTableWord 16 0b1110111111111111 = some (.inp 0xFFF#12) := by decide
theorem test_decode_out : decodeTableWord 16 0b1111101010111100 = some (.out 0xABC#12) := by decide
theorem test_encode_load : encode Config.opcodeMap (.load 0x002#12) = some 0x1002#16 := by decide
/-- E-4 to E-7. -/
theorem test_pack_as_transcribed :
    packUnchecked 0x0 0x1000 = .ok 0x1000#16 ∧ packUnchecked 0x2 0x1000 = .ok 0x3000#16 ∧
    packUnchecked 0x1 0xFFFF = .ok 0xFFFF#16 ∧ packUnchecked 0x1 0x10000 = .error .encodingOverflow := by decide

/-! ### One step of each instruction (95_test_vectors 2.1 to 2.5) -/

/-- C-2. -/
theorem test_halt : (nextOf (step (machine 7#16 0x005 (platform 4096 [(0x005, 0x0ABC#16)] [])))).map
    (fun s => (s.active, s.pc, s.acc)) = some (false, 0x006, 7#16) := by decide
/-- C-4: PC wraps after a fetch from 0xFFF. -/
theorem test_pc_wraps : (nextOf (step (machine 0#16 0xFFF (platform 4096 [(0xFFF, 0x8000#16)] [])))).map
    (fun s => (s.pc, s.acc, s.zero, s.positive)) = some (0x000, 0xFFFF#16, false, false) := by decide
/-- 92 D2: the width of PC is a parameter; at 13 bits a fetch from 0xFFF goes on to 0x1000. -/
theorem test_pc_width : (nextOf (step { machine 0#16 0xFFF (platform 4096 [(0xFFF, 0x8000#16)] []) with
    params := { Config.params with addrBits := 13 } })).map State.pc = some 0x1000 := by decide
/-- M-3. -/
theorem test_load : accOf (step (machine 0#16 0 (platform 4096 [(0x000, 0x1004#16), (0x004, 0x8001#16)] []))) =
    some (0x8001#16, false, false) := by decide
/-- M-4: a LOAD of its own word. -/
theorem test_load_own_word : accOf (step (machine 0#16 0x005 (platform 4096 [(0x005, 0x1005#16)] []))) =
    some (0x1005#16, false, true) := by decide
/-- M-5. -/
theorem test_store : (nextOf (step (machine 0x1234#16 0 (platform 4096 [(0x000, 0x2100#16)] [])))).map
    (fun s => (s.cell 0 0x100, s.acc, s.zero, s.positive)) = some (some 0x1234#16, 0x1234#16, false, true) := by decide
/-- M-8: no device matches, nothing changes but PC, no fault. -/
theorem test_store_dropped : nextOf (step (machine 5#16 0 (platform 0x100 [(0x000, 0x2200#16)] []))) =
    some (machine 5#16 1 (platform 0x100 [(0x000, 0x2200#16)] [])) := by decide
/-- A-2, A-3. -/
theorem test_add : aluStep 0xFFFF#16 0x300A#16 0x0001#16 = some (0x0000#16, true, true) := by decide
theorem test_add_overflow : aluStep 0x7FFF#16 0x300A#16 0x0001#16 = some (0x8000#16, false, false) := by decide
/-- A-7, A-9. -/
theorem test_sub : aluStep 0x0000#16 0x400A#16 0x0001#16 = some (0xFFFF#16, false, false) := by decide
theorem test_sub_to_positive : aluStep 0x8000#16 0x400A#16 0x0001#16 = some (0x7FFF#16, false, true) := by decide
/-- A-10. -/
theorem test_and : aluStep 0xF0F0#16 0x500A#16 0x0FF0#16 = some (0x00F0#16, false, true) := by decide
/-- A-12. -/
theorem test_or : aluStep 0xF000#16 0x600A#16 0x000F#16 = some (0xF00F#16, false, false) := by decide
/-- A-14, A-16. -/
theorem test_xor : aluStep 0x00FF#16 0x700A#16 0x0F0F#16 = some (0x0FF0#16, false, true) := by decide
theorem test_xor_top : aluStep 0xFFFF#16 0x700A#16 0x7FFF#16 = some (0x8000#16, false, false) := by decide
/-- A-19. -/
theorem test_not : aluStep 0x1234#16 0x8000#16 0#16 = some (0xEDCB#16, false, false) := by decide
/-- A-22, A-23. -/
theorem test_shl : aluStep 0x8000#16 0x9000#16 0#16 = some (0x0000#16, true, true) := by decide
theorem test_shl_ones : aluStep 0xFFFF#16 0x9000#16 0#16 = some (0xFFFE#16, false, false) := by decide
/-- A-24, A-25. -/
theorem test_shr : aluStep 0x8000#16 0xA000#16 0#16 = some (0x4000#16, false, true) := by decide
theorem test_shr_to_zero : aluStep 0x0001#16 0xA000#16 0#16 = some (0x0000#16, true, true) := by decide
/-- B-2. -/
theorem test_bra : (nextOf (step (machine 0#16 4 (platform 4096 [(4, 0xBFFF#16)] [])))).map State.pc =
    some 0xFFF := by decide
/-- B-5, B-9. -/
theorem test_brp_zero : (nextOf (step (machine 0#16 4 (platform 4096 [(4, 0xC010#16)] [])))).map State.pc =
    some 0x010 := by decide
theorem test_brp_not_taken_wraps :
    (nextOf (step (machine 0x8000#16 0xFFF (platform 4096 [(0xFFF, 0xC010#16)] [])))).map State.pc =
    some 0x000 := by decide
/-- B-3, B-4. -/
theorem test_brz : (nextOf (step (machine 0#16 4 (platform 4096 [(4, 0xD010#16)] [])))).map State.pc =
    some 0x010 := by decide
theorem test_brz_not_taken : (nextOf (step (machine 1#16 4 (platform 4096 [(4, 0xD010#16)] [])))).map State.pc =
    some 0x005 := by decide
/-- I-1, I-4: the byte is consumed, the operand field ignored. -/
theorem test_inp : nextOf (step (machine 7#16 0 (platform 4096 [(0, 0xEFFF#16)] [0x42#8]))) =
    some (machine 0x42#16 1 (platform 4096 [(0, 0xEFFF#16)] [])) := by decide
/-- I-6. -/
theorem test_inp_no_device :
    (nextOf (step (machine 7#16 0x020 [⟨[⟨false, 0, 4096⟩], .storage [(0x020, 0xE000#16)]⟩]))).map
    (fun s => (s.fault, s.pc, s.acc, s.ioRequest)) =
    some (some (.noData .port 0x00), 0x021, 7#16, false) := by decide
/-- I-8. -/
theorem test_out : (nextOf (step (machine 0x1241#16 0 (platform 4096 [(0, 0xFABC#16)] [])))).map
    (fun s => ((s.devices[1]?).map Device.kind, s.acc)) =
    some (some (.console 0x00#8 0x01#8 [] [0x0041#16]), 0x1241#16) := by decide
/-- I-9. -/
theorem test_out_no_device : (nextOf (step (machine 0x41#16 0 [⟨[⟨false, 0, 4096⟩], .storage [(0, 0xF000#16)]⟩]))).map
    (fun s => (s.fault, s.cell 0 1)) = some (none, some 0#16) := by decide

/-! ### Fatal conditions, holds, stopped machines -/

/-- M-7. -/
theorem test_load_no_data : (nextOf (step (machine 0x1234#16 0x010 (platform 0x100 [(0x010, 0x1200#16)] [])))).map
    (fun s => (s.fault, s.pc, s.acc)) = some (some (.noData .data 0x200), 0x011, 0x1234#16) := by decide
/-- P7, its second step. -/
theorem test_fetch_no_data : (nextOf (step (machine 0#16 0x200 (platform 0x100 [] [])))).map
    (fun s => (s.fault, s.pc, s.active)) = some (some (.noData .fetch 0x200), 0x201, true) := by decide
/-- C-5. -/
theorem test_faulted_stays : nextOf (step ((machine 3#16 0 (platform 4096 [] [])).raise (.noData .fetch 0x200))) =
    some ((machine 3#16 0 (platform 4096 [] [])).raise (.noData .fetch 0x200)) := by decide
/-- I-5: the step does not complete. -/
theorem test_inp_holds : (nextOf (step (machine 7#16 0 (platform 4096 [(0, 0xE000#16)] [])))).map
    (fun s => (s.hold, s.acc, s.pc, s.status)) =
    some (some ⟨.execute (.inp 0#12), 1⟩, 7#16, 1, .waiting) := by decide
/-- The read on hold goes on where it was held, without a new fetch. -/
theorem test_inp_resumes :
    accOf (step (((machine 7#16 1 (platform 4096 [] [0x42#8])).setIoRequest).suspend (.execute (.inp 0#12)) 1)) =
    some (0x42#16, false, true) := by rfl

/-! ### The ways a run ends (70_reset R207) -/

/-- HALT was executed. -/
theorem test_run_halts : (machine 7#16 5 (platform 16 [] [])).runEnds .halted := ⟨1, _, rfl, by decide⟩
/-- P7: a fetch where no device answers. -/
theorem test_run_faults : (machine 0#16 0 (platform 0x100 [(0, 0xB200#16)] [])).runEnds .faulted :=
  ⟨2, _, rfl, by decide⟩
/-- R207: BRA to itself. -/
theorem test_run_diverges : (machine 0#16 0 (platform 16 [(0, 0xB000#16)] [])).runEnds .diverging :=
  diverging_of_fixed (by decide) (by rfl) (by decide)

/-! ### The bus arbiter (95_test_vectors 2.6) -/

/-- Two storage devices that both answer memory address 0x010. -/
def overlap : List Device := [⟨[⟨false, 0x010, 1⟩], .storage [(0x010, 0x1111#16)]⟩,
  ⟨[⟨false, 0x010, 1⟩], .storage [(0x010, 0x2222#16)]⟩]

/-- U-1, U-2. -/
theorem test_bus_no_device : (Bus.read 0x123 false []).1 = .answered none ∧ Bus.write 0x123 false 5#16 [] = [] := by decide
/-- U-3, U-4: the port address is narrowed, and a port device does not answer memory. -/
theorem test_bus_narrows : (Bus.read 0x1234 true [⟨[⟨true, 0x34, 1⟩], .storage [(0x34, 9#16)]⟩]).1 = .answered (some 9#16) ∧
    (Bus.read 0x034 false [⟨[⟨true, 0x34, 1⟩], .storage [(0x34, 9#16)]⟩]).1 = .answered none := by decide
/-- U-5. -/
theorem test_bus_write_both : (Bus.write 0x010 false 0x1234#16 overlap).map (fun d => d.cell 0x010) =
    [some 0x1234#16, some 0x1234#16] := by decide
/-- U-6. -/
theorem test_bus_last_wins : (Bus.read 0x010 false overlap).1 = .answered (some 0x2222#16) := by decide
/-- U-7: the last match answers null. -/
theorem test_bus_last_null : (Bus.read 0x010 false [⟨[⟨false, 0x010, 1⟩], .storage [(0x010, 0x1111#16)]⟩,
    ⟨[⟨false, 0x010, 1⟩], .console 0#8 1#8 [] []⟩]).1 = .answered none := by decide

/-! ### Toolchain (95_test_vectors 1, 2.7) -/

/-- E-10, E-11. -/
theorem test_disassemble : disassemble Config.opcodeMap 0x1002#16 = some "LOAD 0x002".toList ∧
    disassemble Config.opcodeMap 0xA5A5#16 = some "SHR 0x5A5".toList := by decide
/-- V-L1-5: a forward reference. -/
theorem test_forward_reference : assemble Config.opcodeMap "bra end\nhalt\nend:\nhalt # done".toList =
    .ok [(0, 0xB002#16), (1, 0x0000#16), (2, 0x0000#16)] := by decide
/-- V-L1-6, E-13. -/
theorem test_overflow : assemble Config.opcodeMap "load 65536".toList = .error .encodingOverflow := by decide
theorem test_origin : assemble Config.opcodeMap "org. 0x100\nBRA 0x100".toList = .ok [(0x100, 0xB100#16)] := by decide
/-- E-14, E-15. -/
theorem test_bad_origin : assemble Config.opcodeMap "org. x".toList = .error .illegalOrigin := by decide
theorem test_no_symbol : assemble Config.opcodeMap "load nowhere".toList =
    .error (.undefinedSymbol "nowhere".toList) := by decide
/-- C5, D11: a glued comment mark is refused, and so is a negative literal. -/
theorem test_glued_comment : assemble Config.opcodeMap "#note".toList = .error (.unknownToken "#note".toList) := by decide
theorem test_negative : assemble Config.opcodeMap "load -1".toList = .error (.negativeLiteral "-1".toList) := by decide
/-- R84's last sentence, C5, D11: a glued mark is refused as a label and as an operand too. -/
theorem test_glued_label : assemble Config.opcodeMap "#x:".toList = .error (.unknownToken "#x:".toList) := by decide
theorem test_glued_operand : assemble Config.opcodeMap "halt #note".toList =
    .error (.unknownToken "#note".toList) := by decide
/-- R91. -/
theorem test_program_text : programText [(0, 0x1002#16), (12, 7#16)] = "0 4098\n12 7".toList := by decide

/-! ### The host's own questions: the first instruction after reset -/

theorem test_first_load : (nextOf (step (State.reset.withFetchWord 16 0x1000))).map (fun s => (s.acc, s.pc)) =
    some (0x1000#16, 1) := by decide
theorem test_first_inp : (nextOf (step (State.reset.withFetchWord 16 0xE000))).map State.status = some .waiting := by decide
/-- On a platform that does not store the Word, a cell of its own is placed. -/
theorem test_first_without_ram :
    (nextOf (step ((machine 0#16 3 overlap).withFetchWord 16 0xB007))).map State.pc = some 7 := by decide

/-! ### Witnesses: a concrete state and operands that meet the hypotheses of each statement that has any -/

/-- RAM with LOAD 2 at 0 and 0x00FF at 2; ACC = 3; one input byte waits. -/
def ready : State := machine 3#16 0 (platform 4096 [(0, 0x1002#16), (2, 0x00FF#16)] [0x42#8])

/-- The same with a halted CPU. -/
def stopped : State := ready.halt

/-- A RAM of 0x100 Words with LOAD 0x200 at 0. -/
def short : State := machine 3#16 0 (platform 0x100 [(0, 0x1200#16)] [])

/-- A console in the memory space at 0x20, with no input: a read there holds. -/
def blocking : Device := ⟨[⟨false, 0x20, 1⟩], .console 0x20#8 0x21#8 [] []⟩

/-- A RAM and the blocking device. -/
def slow : State := machine 3#16 0 [⟨[⟨false, 0, 0x100⟩], .storage []⟩, blocking]

/-- INP on hold at the console, which has got a byte. -/
def waiting : State := ready.setIoRequest.suspend (.execute (.inp 0#12)) 1

/-- A fetch from the memory-space console on hold, which has got the byte of a HALT. -/
def waitingFetch : State :=
  (machine 3#16 0x20 [⟨[⟨false, 0x20, 1⟩], .console 0x20#8 0x21#8 [0x42#8] []⟩]).suspend .fetch 0

/-- A machine whose opcode map has no row for HALT. -/
def partialMap : State :=
  { machine 3#16 0 (platform 16 [] []) with params := { Config.params with opcodeMap := Config.opcodeMap.drop 1 } }

theorem witness_StepKeepsTheInvariant : ready.Inv ∧ ∃ t, step ready = .next t :=
  ⟨⟨by decide, by decide, by decide, by decide, by decide⟩, _, rfl⟩
theorem witness_StepKeepsTheInvariant_waiting : waiting.Inv ∧ ∃ t, step waiting = .next t :=
  ⟨⟨by decide, by decide, by decide, by decide, by decide⟩, _, rfl⟩
theorem witness_RunKeepsInvariantAndPlatform : ready.Inv ∧ ∃ t, runFor 1 ready = .next t :=
  ⟨⟨by decide, by decide, by decide, by decide, by decide⟩, _, rfl⟩
theorem witness_StepKeepsThePlatform : ∃ t, step ready = .next t := ⟨_, rfl⟩
theorem witness_AccWriteRecomputesFlags :
    (∃ t, exec (.store 2#12) ready = .next t) ∧ ∃ t, exec (.load 2#12) ready = .next t := ⟨⟨_, rfl⟩, _, rfl⟩
theorem witness_EachFlagHasOneReader : (∃ t, exec (.brp 2#12) ready = .next t) ∧ (∀ x, Instr.brp 2#12 ≠ .brz x) ∧
    (∃ t, exec (.brz 2#12) ready = .next t) ∧ ∀ x, Instr.brz 2#12 ≠ .brp x := ⟨⟨_, rfl⟩, by decide, ⟨_, rfl⟩, by decide⟩
theorem witness_ActiveIsClearedOnlyByHalt :
    (∃ t, exec (.not 0#12) ready = .next t ∧ t.active = true) ∧
    (∃ t, exec (.halt 0#12) ready = .next t ∧ ready.active = true ∧ t.active = false) ∧
    (∃ t, step ready = .next t ∧ t.active = true) ∧ stopped.active = false :=
  ⟨⟨_, rfl, rfl⟩, ⟨_, rfl, rfl, rfl⟩, ⟨_, rfl, by decide⟩, rfl⟩
theorem witness_OnlyBranchesWritePc :
    (∃ t, exec (.bra 9#12) ready = .next t) ∧ ∃ t, exec (.add 2#12) ready = .next t := ⟨⟨_, rfl⟩, _, rfl⟩
/-- A read reached at place 1 of three, with a Word, null and a hold, and no later device that answers. -/
theorem witness_PortAddressesAreNarrowed : overlap[1]? = some ⟨[⟨false, 0x010, 1⟩], .storage [(0x010, 0x2222#16)]⟩ ∧
    (⟨[⟨false, 0x010, 1⟩], .storage [(0x010, 0x2222#16)]⟩ : Device).responds (effectiveAddress 0x010 false) false = true ∧
    (⟨[⟨false, 0x010, 1⟩], .storage [(0x010, 0x2222#16)]⟩ : Device).responds (effectiveAddress 0x010 true) true = false ∧
    (Bus.read 0x010 false (overlap.take 1)).1 = .answered (some 0x1111#16) ∧
    (∀ e ∈ overlap.drop 2, e.responds (effectiveAddress 0x010 false) false = false) ∧
    (DeviceKind.read 0x010 (.storage [(0x010, 0x2222#16)])).1 = .word 0x2222#16 := by decide
theorem witness_PortAddressesAreNarrowed_null :
    (platform 16 [] [])[1]? = some (referenceConsole Config.params) ∧
    (referenceConsole Config.params).responds (effectiveAddress 0xFF01 true) true = true ∧
    (Bus.read 0xFF01 true ((platform 16 [] []).take 1)).1 = .answered none ∧
    (∀ e ∈ (platform 16 [] []).drop 2, e.responds (effectiveAddress 0xFF01 true) true = false) ∧
    ((referenceConsole Config.params).kind.read (effectiveAddress 0xFF01 true)).1 = .null := by decide
theorem witness_PortAddressesAreNarrowed_hold :
    (platform 16 [] [])[1]? = some (referenceConsole Config.params) ∧
    (Bus.read 0xFF00 true ((platform 16 [] []).take 1)).1 = .answered none ∧
    ((referenceConsole Config.params).kind.read (effectiveAddress 0xFF00 true)).1 = .hold := by decide
theorem witness_BusWriteReachesEveryMatch :
    ∀ d ∈ overlap, d.responds (effectiveAddress 0x011 false) false = false := by decide
theorem witness_BusReadLastMatchWins_held : Bus.read 0x20 false [blocking] = (.held 0, [blocking]) := by decide
theorem witness_BusReadLastMatchWins_answered :
    Bus.read 0x20 false [] = (.answered none, []) ∧ Bus.read 0x10 false overlap = (.answered (some 0x2222#16), overlap) ∧
    blocking.responds (effectiveAddress 0x10 false) false = false ∧
    blocking.responds (effectiveAddress 0x20 false) false = true ∧
    blocking.kind.read 0x20 = (.hold, blocking.kind) := by decide
theorem witness_BusReadLastMatchWins_word : (referenceRam 16).responds (effectiveAddress 15 false) false = true ∧
    (referenceRam 16).kind.read (effectiveAddress 15 false) = (.word 0#16, (referenceRam 16).kind) := by decide
theorem witness_BusReadLastMatchWins_null :
    (referenceConsole Config.params).responds (effectiveAddress 1 true) true = true ∧
    (referenceConsole Config.params).kind.read (effectiveAddress 1 true) =
      (.null, (referenceConsole Config.params).kind) := by decide
theorem witness_StorageReadGivesTheLastCell : ready.hold = none ∧ ready.onlyStorage 0xFFF ready.ioRequest := by decide
theorem witness_MemoryRead : ready.busRead (ready.addressOf 0x002#12) = (.answered (some 0x00FF#16), ready) := by decide
theorem witness_StoreWritesEveryMatchingDevice : ready.ioRequest = false ∧ ready.memoryWf ∧
    ready.devices[0]? = some ⟨[⟨false, 0, 4096⟩], .storage [(0, 0x1002#16), (2, 0x00FF#16)]⟩ ∧
    (referenceRam 4096).responds (ready.addressOf 0xFFF#12) false = true ∧ (referenceRam 4096).isStorage = true ∧
    (referenceConsole Config.params).responds (ready.addressOf 0xFFF#12) false = false := by decide
theorem witness_NotAndShiftResults : ready.params.shiftSwapped = false ∧
    ({ ready with params := { ready.params with shiftSwapped := true } } : State).params.shiftSwapped = true := by decide
theorem witness_MemoryOperandNoDataIsFatal : dataOperand (.load 0x100#12) = some 0x100#12 ∧
    short.busRead (short.addressOf 0x100#12) = (.answered none, short) := by decide
theorem witness_MemoryOperandReadCanHold : dataOperand (.xor 0x20#12) = some 0x20#12 ∧
    slow.busRead (slow.addressOf 0x20#12) = (.held 1, slow) := by decide
theorem witness_BranchesTestAcc : (machine 0x7FFF#16 0 []).flagsMatch ∧ (machine 0x8000#16 0 []).flagsMatch ∧
    (machine 0#16 0 []).flagsMatch := by decide
theorem witness_InpPutsTheByteInAcc : ∃ t,
    ready.setIoRequest.busRead ready.params.inPort.toNat = (.answered (some 0x0042#16), t) := ⟨_, rfl⟩
theorem witness_InpNoDataIsFatal : ∃ t, (machine 3#16 0 [referenceRam 16]).setIoRequest.busRead
    (machine 3#16 0 [referenceRam 16]).params.inPort.toNat = (.answered none, t) := ⟨_, rfl⟩
theorem witness_InpHolds : ∃ t, short.setIoRequest.busRead short.params.inPort.toNat = (.held 1, t) := ⟨_, rfl⟩
theorem witness_InpOnTheReferenceConsole :
    (ready.hold = none ∧ ready.devices = [⟨[⟨false, 0, 4096⟩], .storage [(0, 0x1002#16), (2, 0x00FF#16)]⟩,
      ⟨[⟨true, ready.params.inPort.toNat, 1⟩, ⟨true, (0x01#8).toNat, 1⟩],
        .console ready.params.inPort 0x01#8 [0x42#8] []⟩]) ∧
    (short.hold = none ∧ short.devices = [⟨[⟨false, 0, 0x100⟩], .storage [(0, 0x1200#16)]⟩,
      ⟨[⟨true, short.params.inPort.toNat, 1⟩, ⟨true, (0x01#8).toNat, 1⟩],
        .console short.params.inPort 0x01#8 [] []⟩]) := by decide
theorem witness_OutWritesEveryMatchingDevice : ready.memoryWf ∧
    ready.devices[1]? = some ⟨[⟨true, 0, 1⟩, ⟨true, 1, 1⟩], .console 0x00#8 ready.params.outPort [0x42#8] []⟩ ∧
    (referenceConsole Config.params).responds ready.params.outPort.toNat true = true ∧
    (referenceRam 16).responds ready.params.outPort.toNat true = false := by decide
theorem witness_OutWritesEveryMatchingDevice_storage :
    (machine 0x1241#16 0 [⟨[⟨true, 0, 2⟩], .storage []⟩]).memoryWf ∧
    (machine 0x1241#16 0 [⟨[⟨true, 0, 2⟩], .storage []⟩]).devices[0]? = some ⟨[⟨true, 0, 2⟩], .storage []⟩ ∧
    (⟨[⟨true, 0, 2⟩], .storage []⟩ : Device).responds Config.params.outPort.toNat true = true ∧
    (⟨[⟨true, 0, 2⟩], .storage []⟩ : Device).isStorage = true := by decide
theorem witness_DecodeSplitsTheWord : 12 ≤ ready.params.addrBits ∧
    decode Config.opcodeMap 0x1002#16 = .instr (.load 0x002#12) ∧ dataOperand (.load 0x002#12) = some 0x002#12 ∧
    ready.busRead ((0x1002#16).toNat % 4096) = (.answered (some 0x00FF#16), ready) ∧
    decode Config.opcodeMap 0x2FFF#16 = .instr (.store 0xFFF#12) ∧
    decode Config.opcodeMap 0xB000#16 = .instr (.bra 0#12) ∧ decode Config.opcodeMap 0xCFFF#16 = .instr (.brp 0xFFF#12) ∧
    decode Config.opcodeMap 0xDFFF#16 = .instr (.brz 0xFFF#12) := by decide
theorem witness_DecodeSplitsTheWord_no_data_and_hold : decode Config.opcodeMap 0x3FFF#16 = .instr (.add 0xFFF#12) ∧
    short.busRead ((0x3FFF#16).toNat % 4096) = (.answered none, short) ∧
    decode Config.opcodeMap 0x3020#16 = .instr (.add 0x020#12) ∧
    slow.busRead ((0x3020#16).toNat % 4096) = (.held 1, slow) := by decide
theorem witness_DecodeEncodeAgree : OpcodeMap.wf [(0xF#4, .halt)] ∧ Instr.wf [(0xF#4, .halt)] (.halt 0xFFF#12) ∧
    encode [(0xF#4, .halt)] (.halt 0xFFF#12) = some 0xFFFF#16 ∧
    decode [(0xF#4, .halt)] 0xFFFF#16 = .instr (.halt 0xFFF#12) := by decide
theorem witness_FullMapDecodesEveryWord : Config.opcodeMap.wf ∧ Config.opcodeMap.full ∧
    decode Config.opcodeMap 0xFFFF#16 = .instr (.out 0xFFF#12) := by decide
theorem witness_PackRule : (0x1 * 4096 ||| 0x10000 > 0xFFFF) ∧ (0xF * 4096 ||| 0xFFF ≤ 0xFFFF) := by decide
theorem witness_ValidPairsComeBack : packPair 0xF#4 0xFFF = .ok 0xFFFF#16 ∧
    packPair 0x0#4 0x1000 = .error .operandTooWide ∧ packPair 0xF#4 0xFFFF = .error .operandTooWide ∧
    packPair 0x0#4 0x10000 = .error .encodingOverflow := by decide
theorem witness_IllegalOpcodeOnlyUnderAPartialMap :
    partialMap.fault = none ∧ partialMap.active = true ∧ partialMap.hold = none ∧
    partialMap.busRead partialMap.pc = (.answered (some 0#16), partialMap) ∧
    partialMap.params.opcodeMap.mnemonicOf (opcodeField 0#16) = none := by decide
theorem witness_IllegalOpcode_full : (ready.raise (.illegalOpcode 0#16)).params.opcodeMap.full ∧
    nextOf (step (ready.raise (.illegalOpcode 0#16))) = some (ready.raise (.illegalOpcode 0#16)) := by decide
theorem witness_StepRunsTheDecodedInstruction : ready.fault = none ∧ ready.active = true ∧ ready.hold = none ∧
    ready.busRead ready.pc = (.answered (some 0x1002#16), ready) ∧
    decode ready.params.opcodeMap 0x1002#16 = .instr (.load 2#12) := by decide
theorem witness_StoppedMachineStays :
    (ready.raise (.noData .data 0)).fault ≠ none ∧ stopped.active = false := by decide
theorem witness_FetchNoDataIsFatal : (short.writePc 0x100).fault = none ∧ (short.writePc 0x100).active = true ∧
    (short.writePc 0x100).hold = none ∧
    (short.writePc 0x100).busRead (short.writePc 0x100).pc = (.answered none, short.writePc 0x100) := by decide
theorem witness_FetchCanHold_start : (slow.writePc 0x20).fault = none ∧ (slow.writePc 0x20).active = true ∧
    (slow.writePc 0x20).hold = none ∧
    (slow.writePc 0x20).busRead (slow.writePc 0x20).pc = (.held 1, slow.writePc 0x20) := by decide
theorem witness_FetchCanHold_goes_on : waitingFetch.fault = none ∧ waitingFetch.active = true ∧
    waitingFetch.hold = some ⟨.fetch, 0⟩ ∧
    (∃ t, waitingFetch.environmentActs.busRead waitingFetch.pc = (.answered (some 0x0042#16), t)) ∧
    decode waitingFetch.params.opcodeMap 0x0042#16 = .instr (.halt 0x042#12) :=
  ⟨rfl, rfl, rfl, ⟨_, rfl⟩, by decide⟩
theorem witness_BlockedInstructionGoesOn : waiting.fault = none ∧ waiting.active = true ∧
    waiting.hold = some ⟨.execute (.inp 0#12), 1⟩ := by decide
theorem witness_BlockedInstructionGoesOn_read : waiting.hold = some ⟨.execute (.inp 0#12), 1⟩ ∧
    (Bus.read 0x00 waiting.ioRequest (waiting.devices.drop 1)).1 = .answered (some 0x0042#16) ∧
    waiting.devices[1]? = some ⟨[⟨true, 0x00, 1⟩, ⟨true, 0x01, 1⟩], .console 0x00#8 0x01#8 [0x42#8] []⟩ ∧
    (⟨[⟨true, 0x00, 1⟩, ⟨true, 0x01, 1⟩], .console 0x00#8 0x01#8 [0x42#8] []⟩ : Device).responds
      (effectiveAddress 0x00 waiting.ioRequest) waiting.ioRequest = true := by decide
theorem witness_BlockedInstructionGoesOn_held :
    (short.setIoRequest.suspend (.execute (.inp 0#12)) 1).hold = some ⟨.execute (.inp 0#12), 1⟩ ∧
    (Bus.read 0x00 true ((short.setIoRequest.suspend (.execute (.inp 0#12)) 1).devices.drop 1)).1 = .held 0 := by decide
theorem witness_FatalConditionIsPrecise : short.Inv ∧ short.fault = none ∧
    (nextOf (step short)).map State.fault = some (some (.noData .data 0x200)) :=
  ⟨⟨by decide, by decide, by decide, by decide, by decide⟩, by decide, by decide⟩
theorem witness_OnlyStoreAndOutWriteStorage :
    writesBus (.load 2#12) = false ∧ ∃ t, exec (.load 2#12) ready = .next t := ⟨rfl, _, rfl⟩
theorem witness_BusTransactionsOfEachInstruction : ready.ioRequest = false ∧ ready.hold = none ∧
    ready.fetchDecode = .ready (.load 2#12) (ready.writePc 1) ∧ dataOperand (.load 2#12) = some 2#12 ∧
    readsBus (.bra 2#12) = false ∧ writesBus (.bra 2#12) = false ∧
    (Bus.read ready.params.inPort.toNat true ready.devices).1 = .answered (some 0x0042#16) := by decide
theorem witness_BusTransactionsOfEachInstruction_stopped : partialMap.ioRequest = false ∧ partialMap.hold = none ∧
    ∃ t, partialMap.fetchDecode = .stopped t := ⟨rfl, rfl, _, rfl⟩
theorem witness_StoredWordIsFetchedNext : ready.memoryWf ∧ ready.ioRequest = false ∧ ready.hold = none ∧
    ready.fault = none ∧ ready.active = true ∧ ready.onlyStorage (ready.addressOf 0xFFF#12) false ∧
    (∃ d ∈ ready.devices, d.responds (ready.addressOf 0xFFF#12) false = true) ∧
    decode ready.params.opcodeMap ready.acc = .instr (.halt 0x003#12) := by decide
theorem witness_RunTestsBeforeEachStep : stopped.active = false ∧ (ready.raise (.noData .data 0)).fault ≠ none ∧
    ready.active = true ∧ ready.fault = none := by decide
theorem witness_DisassembledTextAssemblesBack : Config.opcodeMap.wf ∧ Config.opcodeMap.full ∧
    disassemble Config.opcodeMap 0xFFFF#16 = some "OUT 0xFFF".toList ∧
    assembleAt Config.opcodeMap 0xFFF "OUT 0xFFF".toList = .ok [(0xFFF, 0xFFFF#16)] := by decide
theorem witness_FixupGivesOneLinePerRecord :
    fixupAll [(['e'], 2)] [⟨0, 0xB#4, .symbol ['e']⟩] = .ok [(0, 0xB002#16)] ∧
    lookupSymbol [(['e'], 2)] ['f'] = none ∧
    resolve [] (⟨0, 0x0#4, .value 0x1000⟩ : PendingRecord).operand = .ok 0x1000 := by decide
theorem witness_LabelsAndOriginsSetTheCounter : lookupSymbol [] ['e'] = none ∧ ['e'].head? ≠ some '#' ∧
    ([] : Token).head? ≠ some '#' ∧ ['#'].head? = some '#' ∧ ['#', 'x'].head? = some '#' ∧
    lookupSymbol [(['e'], 2)] ['e'] = some 2 ∧ integerLiteral "0x1f".toList = some 31 ∧
    integerLiteral "x".toList = none := by decide

end Sys2Proof.Tests
end

section
/-! SUPPORT. Once for the execute phase: the few shapes an instruction's meaning has, and what each leaves unchanged.
The statements about all instructions split along these shapes and not along the sixteen instructions. -/

namespace Sys2Proof.Machine

/-! ### The read of an instruction -/

/-- The read is on hold. -/
def ReadResult.isHeld : ReadResult → Bool
  | .held _ => true
  | .answered _ => false

/-- A port read is the bus read with io-request set, after which the flag tells whether the read is on hold
(44_io R172). -/
theorem State.portRead_eq (p : Port) (s : State) :
    s.portRead p = ((s.setIoRequest.busRead p.toNat).1,
      { (s.setIoRequest.busRead p.toNat).2 with ioRequest := (s.setIoRequest.busRead p.toNat).1.isHeld }) := by
  rcases s.portRead_cases p with ⟨v, t, h, hp⟩ | ⟨k, t, h, hp⟩ <;> rw [hp, h]
  · rfl
  · have ht : t.ioRequest = true := by rw [State.busRead_eq _ _ _ _ h]; rfl
    simp only [ReadResult.isHeld, ← ht]

/-- The bus read of an instruction that reads: of its memory operand where it has one, of the input port for INP
(20_memory R59; 44_io R170). -/
def readOf (i : Instr) (s : State) : ReadResult × State :=
  match dataOperand i with
  | some x => s.busRead (s.addressOf x)
  | none => s.portRead s.params.inPort

theorem readOf_of_dataOperand {i : Instr} {x : Operand} (h : dataOperand i = some x) (s : State) :
    readOf i s = s.busRead (s.addressOf x) := by
  simp only [readOf, h]

theorem readOf_of_no_dataOperand {i : Instr} (h : dataOperand i = none) (s : State) :
    readOf i s = s.portRead s.params.inPort := by
  simp only [readOf, h]

/-- An instruction's read changes the devices and maybe the io-request flag, ends the hold, and changes nothing
else. -/
theorem readOf_frame (i : Instr) (s : State) : (readOf i s).2 =
    { s with devices := (readOf i s).2.devices, ioRequest := (readOf i s).2.ioRequest, hold := none } := by
  rcases h : dataOperand i with - | x
  · rw [readOf_of_no_dataOperand h, State.portRead_eq]; rfl
  · rw [readOf_of_dataOperand h]; rfl

theorem readOf_samePlatform (i : Instr) (s : State) : s.samePlatform (readOf i s).2 := by
  rcases h : dataOperand i with - | x
  · rw [readOf_of_no_dataOperand h, State.portRead_eq]
    exact s.setIoRequest.busRead_samePlatform _
  · rw [readOf_of_dataOperand h]
    exact s.busRead_samePlatform _

theorem readOf_memoryWf (i : Instr) (s : State) (hs : s.memoryWf) : (readOf i s).2.memoryWf := by
  rcases h : dataOperand i with - | x
  · rw [readOf_of_no_dataOperand h, State.portRead_eq]
    exact s.setIoRequest.busRead_memoryWf _ hs
  · rw [readOf_of_dataOperand h]
    exact s.busRead_memoryWf _ hs

/-- After an instruction's read the io-request flag is set just where a port read is on hold (10_state R31). -/
theorem readOf_ioRequest (i : Instr) (s : State) (hs : dataOperand i ≠ none → s.ioRequest = false) :
    (readOf i s).2.ioRequest = ((dataOperand i).isNone && (readOf i s).1.isHeld) := by
  rcases h : dataOperand i with - | x
  · rw [readOf_of_no_dataOperand h, State.portRead_eq]; rfl
  · rw [readOf_of_dataOperand h]
    exact hs (by simp [h])

@[simp] theorem readOf_acc (i : Instr) (s : State) : (readOf i s).2.acc = s.acc := by rw [readOf_frame]
@[simp] theorem readOf_zero (i : Instr) (s : State) : (readOf i s).2.zero = s.zero := by rw [readOf_frame]
@[simp] theorem readOf_positive (i : Instr) (s : State) : (readOf i s).2.positive = s.positive := by rw [readOf_frame]
@[simp] theorem readOf_pc (i : Instr) (s : State) : (readOf i s).2.pc = s.pc := by rw [readOf_frame]
@[simp] theorem readOf_active (i : Instr) (s : State) : (readOf i s).2.active = s.active := by rw [readOf_frame]
@[simp] theorem readOf_fault (i : Instr) (s : State) : (readOf i s).2.fault = s.fault := by rw [readOf_frame]
@[simp] theorem readOf_hold (i : Instr) (s : State) : (readOf i s).2.hold = none := by rw [readOf_frame]
@[simp] theorem readOf_params (i : Instr) (s : State) : (readOf i s).2.params = s.params := by rw [readOf_frame]

/-! ### What an instruction does with its read -/

/-- What the seven instructions that read have in common: the read, and then a value of the Word read and of the old
ACC goes to ACC, unless the read is on hold or has no data. -/
def State.readIntoAcc (i : Instr) (phase : Phase) (addr : Params → Nat) (g : Word → Word → Int) (s : State) : State :=
  State.useRead (Instr.held i) phase (addr s.params) (fun v t => t.writeAcc (g v t.acc)) (readOf i s)

theorem State.readIntoAcc_cases (i : Instr) (phase : Phase) (addr : Params → Nat) (g : Word → Word → Int) (s : State) :
    (∃ k, (readOf i s).1 = .held k ∧
      s.readIntoAcc i phase addr g = (readOf i s).2.suspend (.execute (Instr.held i)) k) ∨
    ((readOf i s).1 = .answered none ∧
      s.readIntoAcc i phase addr g = (readOf i s).2.raise (.noData phase (addr s.params))) ∨
    (∃ v, (readOf i s).1 = .answered (some v) ∧ s.readIntoAcc i phase addr g = (readOf i s).2.writeAcc (g v s.acc)) := by
  have h := State.useRead_writeAcc_cases (Instr.held i) phase (addr s.params) g (readOf i s)
  rwa [readOf_acc] at h

/-- The read alone decides PC, the run flag, the devices and the parameters. -/
theorem State.readIntoAcc_frame (i : Instr) (phase : Phase) (addr : Params → Nat) (g : Word → Word → Int) (s : State) :
    ∃ acc zero positive fault hold, s.readIntoAcc i phase addr g = { (readOf i s).2 with
      acc := acc, zero := zero, positive := positive, fault := fault, hold := hold } := by
  rcases s.readIntoAcc_cases i phase addr g with ⟨k, -, h⟩ | ⟨-, h⟩ | ⟨v, -, h⟩ <;>
    exact ⟨_, _, _, _, _, h⟩

@[simp] theorem State.readIntoAcc_pc (i : Instr) (phase : Phase) (addr : Params → Nat) (g : Word → Word → Int)
    (s : State) : (s.readIntoAcc i phase addr g).pc = s.pc := by
  obtain ⟨_, _, _, _, _, h⟩ := s.readIntoAcc_frame i phase addr g
  simp [h]

@[simp] theorem State.readIntoAcc_active (i : Instr) (phase : Phase) (addr : Params → Nat) (g : Word → Word → Int)
    (s : State) : (s.readIntoAcc i phase addr g).active = s.active := by
  obtain ⟨_, _, _, _, _, h⟩ := s.readIntoAcc_frame i phase addr g
  simp [h]

theorem State.readIntoAcc_samePlatform (i : Instr) (phase : Phase) (addr : Params → Nat) (g : Word → Word → Int)
    (s : State) : s.samePlatform (s.readIntoAcc i phase addr g) := by
  obtain ⟨_, _, _, _, _, h⟩ := s.readIntoAcc_frame i phase addr g
  rw [h]
  exact readOf_samePlatform i s

/-! ### The shapes of the sixteen meanings -/

/-- The test a branch makes: BRA none, BRP the flag P, BRZ the flag Z (43_branch R160 to R162). -/
def branchTaken : Instr → State → Bool
  | .brp _, s => s.positive
  | .brz _, s => s.zero
  | _, _ => true

/-- A branch goes to its operand or leaves PC where the fetch put it (43_branch). -/
def State.branch (i : Instr) (s : State) : State := if branchTaken i s = true then s.writePc i.operand.toNat else s

theorem State.branch_cases (i : Instr) (s : State) : s.branch i = s.writePc i.operand.toNat ∨ s.branch i = s :=
  ite_eq_or_eq _ _ _

/-- The shapes of an instruction's meaning, as a function from the state before execute to the state after it. -/
inductive Meaning : Instr → (State → State) → Prop
  /-- HALT (40_cycle R116). -/
  | halt (x : Operand) : Meaning (.halt x) State.halt
  /-- STORE (41_load_store R131). -/
  | store (x : Operand) : Meaning (.store x) fun s => s.busWrite (s.addressOf x) s.acc
  /-- OUT (44_io R171). -/
  | out (x : Operand) : Meaning (.out x) fun s => s.portWrite s.params.outPort (lowByte s.acc)
  /-- BRA, BRP and BRZ (43_branch). -/
  | branch (i : Instr) (hi : isBranch i = true) : Meaning i (State.branch i)
  /-- NOT, SHL and SHR: a value of the old ACC goes to ACC (42_alu R146 to R148). -/
  | compute (i : Instr) (f : Params → Word → Int) (hw : writesAcc i = true) (hr : readsBus i = false) :
    Meaning i fun s => s.writeAcc (f s.params s.acc)
  /-- LOAD, ADD, SUB, AND, OR, XOR and INP (41_load_store R130; 42_alu R141 to R145; 44_io R170). -/
  | read (i : Instr) (phase : Phase) (addr : Params → Nat) (g : Word → Word → Int) (hw : writesAcc i = true)
    (hr : readsBus i = true) :
    Meaning i (State.readIntoAcc i phase addr g)

/-- LOAD, ADD, SUB, AND, OR and XOR have the shape of a read, told by the value `g` they give ACC. -/
theorem exec_of_data_read {i : Instr} {x : Operand} (g : Word → Word → Int) (hw : writesAcc i = true)
    (hr : readsBus i = true)
    (h : ∀ s, exec i s = .next (s.readIntoAcc i .data (fun p => x.toNat % 2 ^ p.addrBits) g)) :
    ∃ f, Meaning i f ∧ ∀ s, exec i s = .next (f s) :=
  ⟨_, .read i _ _ g hw hr, h⟩

/-- Every instruction's meaning has one of the shapes. -/
theorem exec_meaning (i : Instr) : ∃ f, Meaning i f ∧ ∀ s, exec i s = .next (f s) := by
  cases i
  case halt x => exact ⟨_, .halt x, fun _ => rfl⟩
  case store x => exact ⟨_, .store x, fun _ => rfl⟩
  case out x => exact ⟨_, .out x, fun _ => rfl⟩
  case bra x | brp x | brz x => exact ⟨_, .branch _ rfl, fun _ => rfl⟩
  case not x => exact ⟨_, .compute _ (fun _ a => (~~~a).toNat) rfl rfl, fun _ => rfl⟩
  case shl x =>
    exact ⟨_, .compute _ (fun p a => if p.shiftSwapped then shiftRight a else shiftLeft a) rfl rfl, fun _ => rfl⟩
  case shr x =>
    exact ⟨_, .compute _ (fun p a => if p.shiftSwapped then shiftLeft a else shiftRight a) rfl rfl, fun _ => rfl⟩
  case load x => exact exec_of_data_read (x := x) (fun m _ => m.toNat) rfl rfl fun _ => rfl
  case add x => exact exec_of_data_read (x := x) (fun m a => a.toNat + m.toNat) rfl rfl fun _ => rfl
  case sub x => exact exec_of_data_read (x := x) (fun m a => a.toNat - m.toNat) rfl rfl fun _ => rfl
  case and x => exact exec_of_data_read (x := x) (fun m a => (a &&& m).toNat) rfl rfl fun _ => rfl
  case or x => exact exec_of_data_read (x := x) (fun m a => (a ||| m).toNat) rfl rfl fun _ => rfl
  case xor x => exact exec_of_data_read (x := x) (fun m a => (a ^^^ m).toNat) rfl rfl fun _ => rfl
  case inp x => exact ⟨_, .read _ .port (·.inPort.toNat) (fun v _ => (lowByte v).toNat) rfl rfl, fun _ => rfl⟩

theorem meaning_of_exec {i : Instr} {s t : State} (h : exec i s = .next t) : ∃ f, Meaning i f ∧ t = f s := by
  obtain ⟨f, hf, heq⟩ := exec_meaning i
  rw [heq] at h
  injection h with h
  exact ⟨f, hf, h.symm⟩

theorem isBranch_of_writesAcc {i : Instr} (h : writesAcc i = true) : isBranch i = false := by
  cases i
  case bra | brp | brz => cases h
  all_goals rfl

/-! ### What execute leaves unchanged -/

/-- PC is written by the branches only, and is all they write (10_state R27). -/
theorem exec_pc {i : Instr} {s t : State} (h : exec i s = .next t) :
    (isBranch i = true ∧ (t = s.writePc i.operand.toNat ∨ t = s)) ∨ (isBranch i = false ∧ t.pc = s.pc) := by
  obtain ⟨f, hf, rfl⟩ := meaning_of_exec h
  cases hf with
  | halt | store | out => exact .inr ⟨rfl, rfl⟩
  | branch i hi => exact .inl ⟨hi, s.branch_cases i⟩
  | compute i f hw hr => exact .inr ⟨isBranch_of_writesAcc hw, rfl⟩
  | read i phase addr g hw hr => exact .inr ⟨isBranch_of_writesAcc hw, s.readIntoAcc_pc i phase addr g⟩

/-- The run flag is written by HALT only, which clears it (10_state R29). -/
theorem exec_active {i : Instr} {s t : State} (h : exec i s = .next t) :
    (∃ x, i = .halt x ∧ t.active = false) ∨ t.active = s.active := by
  obtain ⟨f, hf, rfl⟩ := meaning_of_exec h
  cases hf with
  | halt x => exact .inl ⟨x, rfl, rfl⟩
  | store | out | compute => exact .inr rfl
  | branch i hi => right; rcases s.branch_cases i with h | h <;> rw [h]; rfl
  | read i phase addr g hw hr => exact .inr (s.readIntoAcc_active i phase addr g)

/-- ACC and the flags stay, or ACC is written and the flags are those of the new value (10_state R22). -/
theorem exec_acc {i : Instr} {s t : State} (h : exec i s = .next t) :
    (t.acc = s.acc ∧ t.zero = s.zero ∧ t.positive = s.positive) ∨ (writesAcc i = true ∧ t.flagsMatch) := by
  obtain ⟨f, hf, rfl⟩ := meaning_of_exec h
  cases hf with
  | halt | store | out => exact .inl ⟨rfl, rfl, rfl⟩
  | branch i hi => left; rcases s.branch_cases i with h | h <;> rw [h] <;> exact ⟨rfl, rfl, rfl⟩
  | compute i f hw hr => exact .inr ⟨hw, rfl, rfl⟩
  | read i phase addr g hw hr =>
    rcases s.readIntoAcc_cases i phase addr g with ⟨k, -, h⟩ | ⟨-, h⟩ | ⟨v, -, h⟩ <;> rw [h]
    · simp
    · simp
    · exact .inr ⟨hw, rfl, rfl⟩

theorem exec_samePlatform {i : Instr} {s t : State} (h : exec i s = .next t) : s.samePlatform t := by
  obtain ⟨f, hf, rfl⟩ := meaning_of_exec h
  cases hf with
  | halt | compute => exact ⟨rfl, rfl⟩
  | store | out => exact ⟨Bus.write_claims _ _ _ _, rfl⟩
  | branch i hi => rcases s.branch_cases i with h | h <;> rw [h] <;> exact ⟨rfl, rfl⟩
  | read i phase addr g hw hr => exact s.readIntoAcc_samePlatform i phase addr g

/-! ### What execute does with the flags it is given -/

/-- The state with other flags. -/
def State.withFlags (z p : Bool) (s : State) : State := { s with zero := z, positive := p }

theorem readOf_withFlags (i : Instr) (z p : Bool) (s : State) :
    readOf i (s.withFlags z p) = ((readOf i s).1, (readOf i s).2.withFlags z p) := by
  rcases h : dataOperand i with - | x
  · simp only [readOf_of_no_dataOperand h, State.portRead_eq]; rfl
  · simp only [readOf_of_dataOperand h]; rfl

/-- A read that is answered with a Word writes both flags anew; any other leaves them as it was given them. -/
theorem State.readIntoAcc_withFlags (i : Instr) (phase : Phase) (addr : Params → Nat) (g : Word → Word → Int)
    (z p : Bool) (s : State) :
    (s.withFlags z p).readIntoAcc i phase addr g = s.readIntoAcc i phase addr g ∨
    ((s.withFlags z p).readIntoAcc i phase addr g = (s.readIntoAcc i phase addr g).withFlags z p ∧
      (s.readIntoAcc i phase addr g).zero = s.zero ∧ (s.readIntoAcc i phase addr g).positive = s.positive) := by
  have hu : (s.withFlags z p).readIntoAcc i phase addr g = State.useRead (Instr.held i) phase (addr s.params)
      (fun v t => t.writeAcc (g v t.acc)) ((readOf i s).1, (readOf i s).2.withFlags z p) := by
    rw [State.readIntoAcc, readOf_withFlags]; rfl
  rw [hu]
  rcases s.readIntoAcc_cases i phase addr g with ⟨k, hr, h⟩ | ⟨hr, h⟩ | ⟨v, hr, h⟩ <;> rw [hr, h]
  · exact .inr ⟨rfl, by simp, by simp⟩
  · exact .inr ⟨rfl, by simp, by simp⟩
  · left; rw [← readOf_acc i s]; rfl

/-- Where a branch would go the same way, an instruction does the same whatever the flags are: it leaves them as they
are, or writes both anew. -/
theorem exec_withFlags {i : Instr} {s t : State} {z p : Bool}
    (hb : branchTaken i (s.withFlags z p) = branchTaken i s) (h : exec i s = .next t) :
    exec i (s.withFlags z p) = .next t ∨
    (exec i (s.withFlags z p) = .next (t.withFlags z p) ∧ t.zero = s.zero ∧ t.positive = s.positive) := by
  obtain ⟨f, hf, heq⟩ := exec_meaning i
  rw [heq] at h
  injection h with h
  subst h
  rw [heq]
  cases hf with
  | halt | store | out => exact .inr ⟨rfl, rfl, rfl⟩
  | compute => exact .inl rfl
  | branch i hi =>
    right
    simp only [State.branch, hb]
    split <;> exact ⟨rfl, rfl, rfl⟩
  | read i phase addr g hw hr =>
    rcases s.readIntoAcc_withFlags i phase addr g z p with hu | ⟨hu, hz, hp⟩ <;> rw [hu]
    · exact .inl rfl
    · exact .inr ⟨rfl, hz, hp⟩

/-! ### What execute does with the invariant -/

/-- Between two instructions the invariant asks nothing of a hold, and the io-request flag clear (10_state R31). -/
theorem State.inv_of_no_hold {s : State} (hf : s.flagsMatch) (hpc : s.pcInRange) (hm : s.memoryWf)
    (hh : s.hold = none) (hio : s.ioRequest = false) : s.Inv where
  flags := hf
  pc := hpc
  io := by simp [State.ioSound, State.inPortRead, hh, hio]
  hold := by simp [State.holdSound, hh]
  memory := hm

theorem State.Inv.ioRequest_of_no_hold {s : State} (hs : s.Inv) (hh : s.hold = none) : s.ioRequest = false := by
  simpa [State.ioSound, State.inPortRead, hh] using hs.io

theorem State.Inv.writeAcc {s : State} (hs : s.Inv) (v : Int) : (s.writeAcc v).Inv :=
  ⟨⟨rfl, rfl⟩, hs.pc, hs.io, hs.hold, hs.memory⟩

theorem State.Inv.writePc {s : State} (hs : s.Inv) (n : Nat) : (s.writePc n).Inv :=
  ⟨hs.flags, s.wrapAddress_lt n, hs.io, hs.hold, hs.memory⟩

theorem State.Inv.raise {s : State} (hs : s.Inv) (hh : s.hold = none) (f : Fault) : (s.raise f).Inv :=
  State.inv_of_no_hold hs.flags hs.pc hs.memory hh (hs.ioRequest_of_no_hold hh)

theorem State.Inv.halt {s : State} (hs : s.Inv) (hh : s.hold = none) : s.halt.Inv :=
  State.inv_of_no_hold hs.flags hs.pc hs.memory hh (hs.ioRequest_of_no_hold hh)

theorem State.Inv.busWrite {s : State} (hs : s.Inv) (a : Nat) (v : Word) : (s.busWrite a v).Inv :=
  ⟨hs.flags, hs.pc, hs.io, hs.hold, Bus.write_wf _ _ _ _ hs.memory⟩

theorem State.Inv.portWrite {s : State} (hs : s.Inv) (hh : s.hold = none) (p : Port) (v : Word) :
    (s.portWrite p v).Inv :=
  State.inv_of_no_hold hs.flags hs.pc (Bus.write_wf _ _ _ _ hs.memory) hh rfl

theorem State.Inv.branch {s : State} (hs : s.Inv) (i : Instr) : (s.branch i).Inv := by
  rcases s.branch_cases i with h | h <;> rw [h]
  · exact hs.writePc _
  · exact hs

theorem State.Inv.busRead {s : State} (hs : s.Inv) (hio : s.ioRequest = false) (a : Nat) : (s.busRead a).2.Inv :=
  State.inv_of_no_hold hs.flags hs.pc (s.busRead_memoryWf a hs.memory) rfl hio

theorem State.Inv.environmentActs {s : State} (hs : s.Inv) : s.environmentActs.Inv := by
  have hm := s.environmentActs_memoryWf hs.memory
  rw [s.environmentActs_eq]
  exact ⟨hs.flags, hs.pc, hs.io, hs.hold, hm⟩

/-- A held read records an instruction that reads, and waits in a port read just where it has no memory operand. -/
theorem held_of_readsBus {i : Instr} (h : readsBus i = true) : readsBus (Instr.held i) = true ∧
    ∀ (s : State) (k : Nat), (s.suspend (.execute (Instr.held i)) k).inPortRead = (dataOperand i).isNone := by
  cases i
  case load | add | sub | and | or | xor | inp => exact ⟨rfl, fun _ _ => rfl⟩
  all_goals cases h

/-- An instruction that reads keeps the invariant, started with the io-request flag clear if it reads memory. -/
theorem State.Inv.readIntoAcc {s : State} (hs : s.Inv) (hr : s.running = true) {i : Instr} (hi : readsBus i = true)
    (hio : dataOperand i ≠ none → s.ioRequest = false) (phase : Phase) (addr : Params → Nat)
    (g : Word → Word → Int) : (s.readIntoAcc i phase addr g).Inv := by
  have hflags : (readOf i s).2.flagsMatch := by rw [readOf_frame]; exact hs.flags
  have hpc : (readOf i s).2.pcInRange := by rw [readOf_frame]; exact hs.pc
  have hmem := readOf_memoryWf i s hs.memory
  have hmode := readOf_ioRequest i s hio
  have answered : ∀ v, (readOf i s).1 = .answered v → (readOf i s).2.Inv := fun v hv =>
    State.inv_of_no_hold hflags hpc hmem (readOf_hold i s) (by simpa [hv, ReadResult.isHeld] using hmode)
  rcases s.readIntoAcc_cases i phase addr g with ⟨k, hk, h⟩ | ⟨hv, h⟩ | ⟨v, hv, h⟩ <;> rw [h]
  · obtain ⟨hreads, hport⟩ := held_of_readsBus hi
    refine ⟨hflags, hpc, ?_, ?_, hmem⟩
    · rw [State.ioSound, hport, State.suspend_ioRequest, hmode, hk, ReadResult.isHeld, Bool.and_true]
    · simpa [State.holdSound, State.running_iff, hreads] using hr
  · exact (answered _ hv).raise (readOf_hold i s) _
  · exact (answered _ hv).writeAcc _

/-- Execute keeps the invariant: of an instruction just fetched, and of one whose read is on hold. -/
theorem exec_inv {i : Instr} {s t : State} (hs : s.Inv) (hr : s.running = true)
    (hh : s.hold = none ∨ ∃ k, s.hold = some ⟨.execute i, k⟩) (h : exec i s = .next t) : t.Inv := by
  have noHold : readsBus i = false → s.hold = none := by
    intro hi
    rcases hh with hh | ⟨k, hh⟩
    · exact hh
    · have := hs.hold
      simp [State.holdSound, hh, hi] at this
  have memoryMode : dataOperand i ≠ none → s.ioRequest = false := by
    intro hi
    rcases hh with hh | ⟨k, hh⟩
    · exact hs.ioRequest_of_no_hold hh
    · rw [hs.io, State.inPortRead, hh]
      cases i
      case inp => exact absurd rfl hi
      all_goals rfl
  obtain ⟨f, hf, rfl⟩ := meaning_of_exec h
  cases hf with
  | halt => exact hs.halt (noHold rfl)
  | store => exact hs.busWrite _ _
  | out => exact hs.portWrite (noHold rfl) _ _
  | branch => exact hs.branch i
  | compute => exact hs.writeAcc _
  | read i phase addr g hw hi => exact hs.readIntoAcc hr hi memoryMode phase addr g

end Sys2Proof.Machine
end

section
/-! SUPPORT. Once for the step and for the rounds of `run()`: what they keep. -/

namespace Sys2Proof.Machine

theorem State.samePlatform.trans {s t u : State} (h : s.samePlatform t) (h' : t.samePlatform u) : s.samePlatform u :=
  ⟨h.1.trans h'.1, h.2.trans h'.2⟩

/-- A step that fetches keeps the invariant: the fetch is in memory mode (40_cycle R110). -/
theorem stepInstr_inv {s t : State} (hs : s.Inv) (hr : s.running = true) (hio : s.ioRequest = false)
    (h : stepInstr s = .next t) : t.Inv := by
  have hread := hs.busRead hio s.pc
  rcases stepInstr_cases h with ⟨k, u, hu, rfl⟩ | ⟨u, hu, rfl⟩ | ⟨w, u, hu, -, rfl⟩ | ⟨w, u, i, hu, -, hx⟩ <;>
    obtain rfl : (s.busRead s.pc).2 = u := congrArg Prod.snd hu
  · exact ⟨hread.flags, hread.pc, hio, hr, hread.memory⟩
  · exact (hread.writePc _).raise rfl _
  · exact (hread.writePc _).raise rfl _
  · exact exec_inv (hread.writePc _) hr (.inl rfl) hx

theorem step_inv {s t : State} (hs : s.Inv) (h : step s = .next t) : t.Inv := by
  have running : s.running = true → s.environmentActs.running = true := by simp [State.running]
  rcases step_cases h with ⟨-, rfl⟩ | ⟨hr, hh, hx⟩ | ⟨k, hr, hh, hx⟩ | ⟨i, k, hr, hh, hx⟩
  · exact hs
  · exact stepInstr_inv hs hr (hs.ioRequest_of_no_hold hh) hx
  · have hio : s.environmentActs.ioRequest = false := by
      rw [State.environmentActs_ioRequest, hs.io, State.inPortRead, hh]
    exact stepInstr_inv hs.environmentActs (running hr) hio hx
  · exact exec_inv hs.environmentActs (running hr) (.inr ⟨k, by rw [State.environmentActs_hold, hh]⟩) hx

theorem stepInstr_samePlatform {s t : State} (h : stepInstr s = .next t) : s.samePlatform t := by
  have hread := s.busRead_samePlatform s.pc
  rcases stepInstr_cases h with ⟨k, u, hu, rfl⟩ | ⟨u, hu, rfl⟩ | ⟨w, u, hu, -, rfl⟩ | ⟨w, u, i, hu, -, hx⟩ <;>
    obtain rfl : (s.busRead s.pc).2 = u := congrArg Prod.snd hu
  · exact hread
  · exact hread
  · exact hread
  · have hpc : s.samePlatform ((s.busRead s.pc).2.writePc (s.pc + 1)) := hread
    exact hpc.trans (exec_samePlatform hx)

theorem step_samePlatform {s t : State} (h : step s = .next t) : s.samePlatform t := by
  have hwait : s.samePlatform s.environmentActs := ⟨s.environmentActs_claims, s.environmentActs_params.symm⟩
  rcases step_cases h with ⟨-, rfl⟩ | ⟨-, -, hx⟩ | ⟨k, -, -, hx⟩ | ⟨i, k, -, -, hx⟩
  · exact ⟨rfl, rfl⟩
  · exact stepInstr_samePlatform hx
  · exact hwait.trans (stepInstr_samePlatform hx)
  · exact hwait.trans (exec_samePlatform hx)

/-- What every step keeps, any number of rounds of `run()` keeps (40_cycle R115). -/
theorem runFor_keeps {P : State → Prop} (hstep : ∀ s t, P s → step s = .next t → P t) (n : Nat) {s t : State}
    (hs : P s) (h : runFor n s = .next t) : P t := by
  induction n generalizing s with
  | zero =>
    injection h with h
    exact h ▸ hs
  | succ n ih =>
    unfold runFor at h
    split at h
    · split at h
      · rename_i u hu
        exact ih (hstep s u hs hu) h
      · cases h
      · cases h
    · injection h with h
      exact h ▸ hs

theorem runFor_of_not_running (n : Nat) {s : State} (h : s.running = false) : runFor n s = .next s := by
  cases n <;> simp [runFor, h]

end Sys2Proof.Machine
end

section
/-! The statements of 10_state: reset, the invariant, the flags, the run flag and PC. -/

namespace Sys2Proof.Proofs.StateRules

open Sys2Proof Sys2Proof.Machine

/-- Settles O3: the fetch, the environment's act and each shape of an instruction's meaning keep the invariant. -/
theorem stepKeepsTheInvariant : Obligations.StepKeepsTheInvariant :=
  fun _ _ hs h => step_inv hs h

/-- Settles O4, by induction on the rounds. -/
theorem runKeepsInvariantAndPlatform : Obligations.RunKeepsInvariantAndPlatform := by
  intro n s t hs h
  refine runFor_keeps (P := fun u => u.Inv ∧ s.samePlatform u) ?_ n ⟨hs, rfl, rfl⟩ h
  rintro u v ⟨hu, hp⟩ huv
  exact ⟨step_inv hu huv, hp.trans (step_samePlatform huv)⟩

/-- Settles O7: masking is the residue modulo 2^16, and an instruction writes ACC by `State.writeAcc` or not at all. -/
theorem accWriteRecomputesFlags : Obligations.AccWriteRecomputesFlags := by
  refine ⟨fun s v => ⟨maskWord_toNat v, zeroFlag_iff _, positiveFlag_iff _, rfl⟩, fun i s t h => ?_⟩
  rcases exec_acc h with hkeeps | ⟨hw, hz, hp⟩
  · exact .inl hkeeps
  · exact .inr ⟨hw, by rw [hz, zeroFlag_iff], by rw [hp, positiveFlag_iff]⟩

/-- An instruction other than BRZ makes the same test whatever Z is (10_state R23). -/
theorem branchTaken_of_ne_brz {i : Instr} (h : ∀ x, i ≠ .brz x) (b : Bool) (s : State) :
    branchTaken i (s.withFlags b s.positive) = branchTaken i s := by
  cases i
  case brz x => exact absurd rfl (h x)
  all_goals rfl

/-- An instruction other than BRP makes the same test whatever P is (10_state R24). -/
theorem branchTaken_of_ne_brp {i : Instr} (h : ∀ x, i ≠ .brp x) (b : Bool) (s : State) :
    branchTaken i (s.withFlags s.zero b) = branchTaken i s := by
  cases i
  case brp x => exact absurd rfl (h x)
  all_goals rfl

/-- Settles O8: the test of a branch is the only place where a flag is read. -/
theorem eachFlagHasOneReader : Obligations.EachFlagHasOneReader := by
  refine fun i s t b h => ⟨fun hi => ?_, fun hi => ?_⟩
  · rcases exec_withFlags (branchTaken_of_ne_brz hi b s) h with hx | ⟨hx, -, hp⟩
    · exact ⟨t, hx, .inl rfl⟩
    · exact ⟨_, hx, .inr (by rw [State.withFlags, ← hp])⟩
  · rcases exec_withFlags (branchTaken_of_ne_brp hi b s) h with hx | ⟨hx, hz, -⟩
    · exact ⟨t, hx, .inl rfl⟩
    · exact ⟨_, hx, .inr (by rw [State.withFlags, ← hz])⟩

/-- Settles O9: HALT alone writes the run flag, and a step that changes the state starts from an active machine. -/
theorem activeIsClearedOnlyByHalt : Obligations.ActiveIsClearedOnlyByHalt := by
  refine ⟨fun x s => ⟨s.halt, rfl, rfl⟩, fun i s t h ht => ?_, fun i s t h hs ht => ?_, fun s t h ht => ?_,
    fun s => s.resetCpu_active, fun s hs => ?_⟩
  · rcases exec_active h with ⟨x, -, hx⟩ | hk
    · rw [hx] at ht
      cases ht
    · rw [← hk, ht]
  · rcases exec_active h with ⟨x, hi, -⟩ | hk
    · exact ⟨x, hi⟩
    · rw [hk, hs] at ht
      cases ht
  · rcases step_cases h with ⟨-, rfl⟩ | ⟨hr, -⟩ | ⟨k, hr, -⟩ | ⟨i, k, hr, -⟩
    · exact ht
    all_goals exact (s.running_iff.1 hr).1
  · have hr : s.running = false := by simp [State.running, hs]
    exact ⟨step_of_not_running s hr, fun n => runFor_of_not_running n hr⟩

/-- Settles O10: the other instructions keep PC, and a branch is `State.writePc` or nothing. -/
theorem onlyBranchesWritePc : Obligations.OnlyBranchesWritePc := by
  intro i s t h
  rcases exec_pc h with ⟨hi, rfl | rfl⟩ | hkeeps
  · exact .inl ⟨hi, rfl, .inl rfl⟩
  · exact .inl ⟨hi, rfl, .inr rfl⟩
  · exact .inr hkeeps

/-- Settles O2: nothing is on hold after reset, and the devices hold no cells yet. -/
theorem resetMeetsTheInvariant : Obligations.ResetMeetsTheInvariant :=
  State.inv_of_no_hold ⟨rfl, rfl⟩ (Nat.two_pow_pos _) (by decide) rfl rfl

end Sys2Proof.Proofs.StateRules
end

section
/-! SUPPORT. A bus read of a device list cut in two, and of a list of one device: the visit goes from front to back. -/

namespace Sys2Proof.Machine

/-! ### A list cut in two -/

@[simp] theorem ReadResult.after_zero (r : ReadResult) : r.after 0 = r := by
  cases r <;> simp [ReadResult.after]

theorem Bus.readFrom_length (a : Nat) (io : Bool) (skip : Nat) (r : Option Word) (ds : List Device) :
    (Bus.readFrom a io skip r ds).2.length = ds.length := by
  simpa using (congrArg List.length (Bus.readFrom_claims a io skip r ds)).symm

/-- The first device's part of a visit, whatever devices come after it: it holds the visit, or the rest is visited
with the answer so far. -/
theorem Bus.readFrom_cons_cases (a : Nat) (io : Bool) (r : Option Word) (d : Device) :
    (∃ d', ∀ ds, Bus.readFrom a io 0 r (d :: ds) = (.held 0, d' :: ds)) ∨
    (∃ r' d', ∀ ds, Bus.readFrom a io 0 r (d :: ds) = Bus.past d' (Bus.readFrom a io 0 r' ds)) := by
  simp only [Bus.readFrom]
  split
  · split
    · exact .inl ⟨_, fun _ => rfl⟩
    · exact .inr ⟨_, _, fun _ => rfl⟩
    · exact .inr ⟨_, _, fun _ => rfl⟩
  · exact .inr ⟨_, _, fun _ => rfl⟩

/-- A visit held in the first part of a list does not reach the second part. -/
theorem Bus.readFrom_append_of_held {a : Nat} {io : Bool} {r : Option Word} {ds ds' : List Device} {k : Nat}
    (h : Bus.readFrom a io 0 r ds = (.held k, ds')) (es : List Device) :
    Bus.readFrom a io 0 r (ds ++ es) = (.held k, ds' ++ es) := by
  induction ds generalizing r k ds' with
  | nil => cases h
  | cons d ds ih =>
    rw [List.cons_append]
    rcases Bus.readFrom_cons_cases a io r d with ⟨d', hd⟩ | ⟨r', d', hd⟩ <;> rw [hd] at h ⊢
    · cases h; rfl
    · rcases hq : Bus.readFrom a io 0 r' ds with ⟨v | j, fs⟩ <;> rw [hq] at h <;> cases h
      rw [ih hq]; rfl

/-- A visit that the first part of a list answers goes on in the second part with that answer. -/
theorem Bus.readFrom_append_of_answered {a : Nat} {io : Bool} {r v : Option Word} {ds ds' : List Device}
    (h : Bus.readFrom a io 0 r ds = (.answered v, ds')) (es : List Device) :
    Bus.readFrom a io 0 r (ds ++ es) =
      ((Bus.readFrom a io 0 v es).1.after ds.length, ds' ++ (Bus.readFrom a io 0 v es).2) := by
  induction ds generalizing r ds' with
  | nil => cases h; simp
  | cons d ds ih =>
    rw [List.cons_append]
    rcases Bus.readFrom_cons_cases a io r d with ⟨d', hd⟩ | ⟨r', d', hd⟩ <;> rw [hd] at h ⊢
    · cases h
    · rcases hq : Bus.readFrom a io 0 r' ds with ⟨w | j, fs⟩ <;> rw [hq] at h <;> cases h
      rw [ih hq]
      cases (Bus.readFrom a io 0 v es).1 <;>
        simp [Bus.past, ReadResult.shift, ReadResult.after, Nat.add_right_comm]

/-- What a read makes of the first part of a list does not depend on the devices after it. -/
theorem Bus.readFrom_append_getElem? (a : Nat) (io : Bool) (r : Option Word) (ds es : List Device) {k : Nat}
    (hk : k < ds.length) : (Bus.readFrom a io 0 r (ds ++ es)).2[k]? = (Bus.readFrom a io 0 r ds).2[k]? := by
  have hl := Bus.readFrom_length a io 0 r ds
  rcases h : Bus.readFrom a io 0 r ds with ⟨v | j, ds'⟩ <;> rw [h] at hl
  · rw [Bus.readFrom_append_of_answered h, List.getElem?_append_left (by rwa [hl])]
  · rw [Bus.readFrom_append_of_held h, List.getElem?_append_left (by rwa [hl])]

/-- Devices that do not respond leave the answer as it is, and are left as they are. -/
theorem Bus.readFrom_of_none_responds {a : Nat} {io : Bool} {ds : List Device}
    (h : ∀ d ∈ ds, d.responds a io = false) (r : Option Word) : Bus.readFrom a io 0 r ds = (.answered r, ds) := by
  rw [Bus.readFrom_storage a io r ds fun d hd hr => by simp [h d hd] at hr,
    List.filter_eq_nil_iff.2 fun d hd => by simp [h d hd]]
  rfl

/-- Devices at the end that do not respond leave the answer as it is. -/
theorem Bus.readFrom_append_fst_of_none_responds {a : Nat} {io : Bool} {es : List Device}
    (he : ∀ e ∈ es, e.responds a io = false) (r : Option Word) (ds : List Device) :
    (Bus.readFrom a io 0 r (ds ++ es)).1 = (Bus.readFrom a io 0 r ds).1 := by
  rcases h : Bus.readFrom a io 0 r ds with ⟨v | j, ds'⟩
  · rw [Bus.readFrom_append_of_answered h, Bus.readFrom_of_none_responds he]; rfl
  · rw [Bus.readFrom_append_of_held h]

/-! ### A list of one device -/

theorem Bus.readFrom_singleton_word {a : Nat} {io : Bool} {d : Device} {w : Word} {k : DeviceKind}
    (h : d.responds a io = true) (hk : d.kind.read a = (.word w, k)) (r : Option Word) :
    Bus.readFrom a io 0 r [d] = (.answered (some w), [d.withKind k]) := by
  simp [Bus.readFrom, h, hk, Bus.past, ReadResult.shift]

theorem Bus.readFrom_singleton_null {a : Nat} {io : Bool} {d : Device} {k : DeviceKind}
    (h : d.responds a io = true) (hk : d.kind.read a = (.null, k)) (r : Option Word) :
    Bus.readFrom a io 0 r [d] = (.answered none, [d.withKind k]) := by
  simp [Bus.readFrom, h, hk, Bus.past, ReadResult.shift]

theorem Bus.readFrom_singleton_hold {a : Nat} {io : Bool} {d : Device} {k : DeviceKind}
    (h : d.responds a io = true) (hk : d.kind.read a = (.hold, k)) (r : Option Word) :
    Bus.readFrom a io 0 r [d] = (.held 0, [d.withKind k]) := by
  simp [Bus.readFrom, h, hk]

/-- Whatever it answers, a device that responds is read. -/
theorem Bus.readFrom_singleton_snd {a : Nat} {io : Bool} {d : Device} (h : d.responds a io = true) (r : Option Word) :
    (Bus.readFrom a io 0 r [d]).2 = [d.withKind (d.kind.read a).2] := by
  rcases hk : d.kind.read a with ⟨w | _ | _, k⟩
  · rw [Bus.readFrom_singleton_word h hk]
  · rw [Bus.readFrom_singleton_null h hk]
  · rw [Bus.readFrom_singleton_hold h hk]

/-! ### One more device at the end -/

theorem Bus.readFrom_concat_of_not_responds {a : Nat} {io : Bool} {d : Device} (h : d.responds a io = false)
    (r : Option Word) (ds : List Device) : Bus.readFrom a io 0 r (ds ++ [d]) =
      ((Bus.readFrom a io 0 r ds).1, (Bus.readFrom a io 0 r ds).2 ++ [d]) := by
  have hone : ∀ e ∈ [d], e.responds a io = false := by simpa using h
  rcases hq : Bus.readFrom a io 0 r ds with ⟨v | j, ds'⟩
  · rw [Bus.readFrom_append_of_answered hq, Bus.readFrom_of_none_responds hone]; rfl
  · rw [Bus.readFrom_append_of_held hq]

/-- The place of a list's element cuts the list before and after it. -/
theorem exists_append_of_getElem? {α : Type} {l : List α} {k : Nat} {x : α} (h : l[k]? = some x) :
    ∃ pre post, l = pre ++ [x] ++ post ∧ pre.length = k := by
  obtain ⟨hk, rfl⟩ := List.getElem?_eq_some_iff.1 h
  exact ⟨l.take k, l.drop (k + 1), by simp, by simp; omega⟩

end Sys2Proof.Machine
end

section
/-! SUPPORT. The devices and the cells after a bus transaction of the machine, and after execute. -/

namespace Sys2Proof.Machine

/-! ### A read with none on hold -/

/-- With no read on hold, a bus read is `Bus.read` of the devices, and changes nothing else. -/
theorem State.busRead_of_no_hold {s : State} (hh : s.hold = none) (a : Nat) :
    s.busRead a =
      ((Bus.read a s.ioRequest s.devices).1, { s with devices := (Bus.read a s.ioRequest s.devices).2 }) := by
  obtain ⟨⟩ := s
  cases hh
  rfl

/-- Where only storage answers, a bus read gives the last answering device's cell and changes nothing. -/
theorem State.busRead_of_onlyStorage {s : State} {a : Nat} (hh : s.hold = none)
    (h : s.onlyStorage a s.ioRequest) : s.busRead a = (.answered (s.lastCell a s.ioRequest), s) := by
  rw [State.busRead_of_no_hold hh, Bus.read, Bus.readFrom_storage _ _ _ _ h, State.lastCell]
  cases (List.filter _ s.devices).getLast? <;> rfl

/-- Where some device answers and each that does holds the same Word, that Word is the last cell. -/
theorem State.lastCell_eq_some {s : State} {a : Nat} {io : Bool} {w : Word}
    (hsome : ∃ d ∈ s.devices, d.responds (effectiveAddress a io) io = true)
    (hcell : ∀ d ∈ s.devices, d.responds (effectiveAddress a io) io = true → d.cell (effectiveAddress a io) = some w) :
    s.lastCell a io = some w := by
  obtain ⟨d, hd, hr⟩ := hsome
  have hne : (s.devices.filter fun d => d.responds (effectiveAddress a io) io) ≠ [] :=
    List.ne_nil_of_mem (List.mem_filter.2 ⟨hd, hr⟩)
  obtain ⟨hlast, hlastr⟩ := List.mem_filter.1 (List.getLast_mem hne)
  rw [State.lastCell, List.getLast?_eq_some_getLast hne]
  exact hcell _ hlast hlastr

/-! ### A write -/

/-- Some device responds before a write just where one does after it. -/
theorem Bus.exists_responds_write {a b : Nat} {io io' : Bool} {v : Word} {ds : List Device}
    (h : ∃ d ∈ ds, d.responds b io' = true) : ∃ d ∈ Bus.write a io v ds, d.responds b io' = true := by
  obtain ⟨d, hd, hr⟩ := h
  refine ⟨_, List.mem_map_of_mem hd, ?_⟩
  split
  · exact hr
  · exact hr

/-- A device that responds after a write is one that was written. -/
theorem Bus.written_of_mem_write {a : Nat} {io : Bool} {v : Word} {ds : List Device} {e : Device}
    (he : e ∈ Bus.write a io v ds) (hr : e.responds (effectiveAddress a io) io = true) :
    ∃ d ∈ ds, d.responds (effectiveAddress a io) io = true ∧
      e = d.withKind (d.kind.write (effectiveAddress a io) v) := by
  obtain ⟨d, hd, rfl⟩ := List.mem_map.1 he
  split at hr
  · rename_i hresp
    exact ⟨d, hd, hresp, if_pos hresp⟩
  · contradiction

/-- Where some device and only storage answers an address, a read there after a write there gives the Word written
and changes nothing. -/
theorem State.busRead_busWrite_same {s : State} {a : Nat} (v : Word) (hm : s.memoryWf) (hh : s.hold = none)
    (hst : s.onlyStorage a s.ioRequest)
    (hsome : ∃ d ∈ s.devices, d.responds (effectiveAddress a s.ioRequest) s.ioRequest = true) :
    (s.busWrite a v).busRead a = (.answered (some v), s.busWrite a v) := by
  have hst' : (s.busWrite a v).onlyStorage a s.ioRequest := by
    intro e he hr
    obtain ⟨d, hd, hdr, rfl⟩ := Bus.written_of_mem_write he hr
    rw [Device.write_isStorage, hst d hd hdr]
  have hcell : (s.busWrite a v).lastCell a s.ioRequest = some v := by
    refine State.lastCell_eq_some (Bus.exists_responds_write hsome) fun e he hr => ?_
    obtain ⟨d, hd, hdr, rfl⟩ := Bus.written_of_mem_write he hr
    exact d.write_cell_same _ v (hm d hd) (hst d hd hdr)
  rw [State.busRead_of_onlyStorage (s := s.busWrite a v) hh hst', State.busWrite_ioRequest, hcell]

/-! ### Execute -/

/-- An instruction that reads its data at an operand address is one that reads the bus, and a hold records it as it
is. -/
theorem readsBus_of_dataOperand {i : Instr} {x : Operand} (h : dataOperand i = some x) :
    readsBus i = true ∧ Instr.held i = i := by
  cases i
  case load | add | sub | and | or | xor => exact ⟨rfl, rfl⟩
  all_goals cases h

/-- An instruction that reads the bus has the shape of a read. -/
theorem exec_of_readsBus {i : Instr} (h : readsBus i = true) :
    ∃ phase addr g, ∀ s, exec i s = .next (s.readIntoAcc i phase addr g) := by
  obtain ⟨f, hf, heq⟩ := exec_meaning i
  cases hf with
  | halt | store | out => cases h
  | branch i hi =>
    cases i
    case bra | brp | brz => cases h
    all_goals cases hi
  | compute i f hw hr => rw [h] at hr; cases hr
  | read i phase addr g hw hr => exact ⟨phase, addr, g, heq⟩

@[simp] theorem State.readIntoAcc_devices (i : Instr) (phase : Phase) (addr : Params → Nat) (g : Word → Word → Int)
    (s : State) : (s.readIntoAcc i phase addr g).devices = (readOf i s).2.devices := by
  obtain ⟨_, _, _, _, _, h⟩ := s.readIntoAcc_frame i phase addr g
  rw [h]

/-- After an instruction that reads, the devices are those after its read. -/
theorem exec_devices_of_readsBus {i : Instr} {s t : State} (hi : readsBus i = true) (h : exec i s = .next t) :
    t.devices = (readOf i s).2.devices := by
  obtain ⟨phase, addr, g, heq⟩ := exec_of_readsBus hi
  rw [heq] at h
  cases h
  exact s.readIntoAcc_devices i phase addr g

/-- An instruction that accesses no bus leaves the devices. -/
theorem exec_devices_of_no_access {i : Instr} {s t : State} (hr : readsBus i = false) (hw : writesBus i = false)
    (h : exec i s = .next t) : t.devices = s.devices := by
  obtain ⟨f, hf, rfl⟩ := meaning_of_exec h
  cases hf with
  | halt | compute => rfl
  | store | out => cases hw
  | branch i hi => rcases s.branch_cases i with h | h <;> rw [h]; rfl
  | read i phase addr g hacc hi => rw [hi] at hr; cases hr

theorem State.cell_eq_of_devices_eq {s t : State} (h : t.devices = s.devices) (k b : Nat) :
    t.cell k b = s.cell k b := by
  rw [State.cell, h, State.cell]

/-- An instruction's read leaves every storage cell. -/
theorem readOf_cell (i : Instr) (s : State) (k b : Nat) : (readOf i s).2.cell k b = s.cell k b := by
  rcases h : dataOperand i with - | x
  · rw [readOf_of_no_dataOperand h, State.portRead_eq]
    exact s.setIoRequest.busRead_cell _ k b
  · rw [readOf_of_dataOperand h]
    exact s.busRead_cell _ k b

theorem exec_cell_of_no_write {i : Instr} {s t : State} (hw : writesBus i = false) (h : exec i s = .next t)
    (k b : Nat) : t.cell k b = s.cell k b := by
  cases hr : readsBus i with
  | false => exact State.cell_eq_of_devices_eq (exec_devices_of_no_access hr hw h) k b
  | true => rw [State.cell_eq_of_devices_eq (exec_devices_of_readsBus hr h), readOf_cell]

/-- The devices after a port read with none on hold. -/
theorem State.portRead_of_no_hold {s : State} (hh : s.hold = none) (p : Port) :
    (s.portRead p).1 = (Bus.read p.toNat true s.devices).1 ∧
    (s.portRead p).2.devices = (Bus.read p.toNat true s.devices).2 := by
  rw [State.portRead_eq, State.busRead_of_no_hold (s := s.setIoRequest) hh]
  exact ⟨rfl, rfl⟩

/-- INP puts the low byte of the Word read from the input port in ACC (44_io R170). -/
theorem exec_inp_acc {x : Operand} {s t : State} {v : Word}
    (hv : (s.portRead s.params.inPort).1 = .answered (some v)) (h : exec (.inp x) s = .next t) : t.acc = lowByte v := by
  obtain rfl : s.withInPort (.inp 0#12) (fun v u => u.writeAcc (lowByte v).toNat) = t := Host.Outcome.next.inj h
  rcases hp : s.portRead s.params.inPort with ⟨r, u⟩
  rw [hp] at hv
  subst hv
  rw [State.withInPort, hp]
  exact maskWord_word _

/-! ### Fetch -/

/-- A fetched Word that decodes is executed with PC incremented (40_cycle R110 to R114). -/
theorem stepInstr_of_decode {s t : State} {w : Word} {i : Instr} (h : s.busRead s.pc = (.answered (some w), t))
    (hd : decode s.params.opcodeMap w = .instr i) : stepInstr s = exec i (t.writePc (s.pc + 1)) := by
  simp [stepInstr, State.fetchDecode, h, hd]

/-- A Word written where PC points, where storage answers, is the instruction run next (20_memory R56). -/
theorem step_of_word_written_at_pc {u : State} {v : Word} {i : Instr} (hr : u.running = true) (hm : u.memoryWf)
    (hh : u.hold = none) (hst : u.onlyStorage u.pc u.ioRequest)
    (hsome : ∃ d ∈ u.devices, d.responds (effectiveAddress u.pc u.ioRequest) u.ioRequest = true)
    (hd : decode u.params.opcodeMap v = .instr i) :
    step (u.busWrite u.pc v) = exec i ((u.busWrite u.pc v).writePc (u.pc + 1)) := by
  have hread : (u.busWrite u.pc v).busRead (u.busWrite u.pc v).pc = (.answered (some v), u.busWrite u.pc v) :=
    State.busRead_busWrite_same v hm hh hst hsome
  rw [step_of_running (u.busWrite u.pc v) hr hh, stepInstr_of_decode hread hd, State.busWrite_pc]

/-- What a fetch that stops comes to: its read, and then no change to a device. -/
theorem State.fetchDecode_stopped_devices {s t : State} (h : s.fetchDecode = .stopped t) :
    t.devices = (s.busRead s.pc).2.devices := by
  rcases s.fetchDecode_cases with ⟨k, u, hu, hf⟩ | ⟨u, hu, hf⟩ | ⟨w, u, hu, -, hf⟩ | ⟨w, u, i, -, -, hf⟩ <;>
    rw [hf] at h <;> cases h <;> rw [hu] <;> rfl

/-- What a fetch that is ready comes to: its read answers a Word that decodes to the instruction. -/
theorem State.fetchDecode_ready {s t : State} {i : Instr} (h : s.fetchDecode = .ready i t) :
    t.devices = (s.busRead s.pc).2.devices ∧
    ∃ w, (s.busRead s.pc).1 = .answered (some w) ∧ decode s.params.opcodeMap w = .instr i := by
  rcases s.fetchDecode_cases with ⟨k, u, -, hf⟩ | ⟨u, -, hf⟩ | ⟨w, u, -, -, hf⟩ | ⟨w, u, j, hu, hd, hf⟩ <;>
    rw [hf] at h <;> cases h
  rw [hu]
  exact ⟨rfl, w, rfl, hd⟩

end Sys2Proof.Machine
end

section
/-! The statements of 20_memory: the bus arbiter, storage, and the accesses of each instruction. -/

namespace Sys2Proof.Proofs.MemoryRules

open Sys2Proof Sys2Proof.Machine

/-- Settles O5: the environment's act, the fetch and execute each keep the platform. -/
theorem stepKeepsThePlatform : Obligations.StepKeepsThePlatform :=
  fun _ _ h => step_samePlatform h

/-- Settles O13: the visit of the longer list is that of the list before, gone on with at the last device. -/
theorem busReadLastMatchWins : Obligations.BusReadLastMatchWins := by
  intro a io
  refine ⟨rfl, fun ds es d => ⟨fun k hheld => Bus.readFrom_append_of_held hheld [d], fun v hans => ?_⟩⟩
  have hlast : Bus.read a io (ds ++ [d]) = _ := Bus.readFrom_append_of_answered hans [d]
  refine ⟨fun hno => ?_, fun hr => ⟨fun w k hk => ?_, fun k hk => ?_, fun k hk => ?_⟩⟩
  · rw [hlast, Bus.readFrom_of_none_responds (by simpa using hno)]; rfl
  · rw [hlast, Bus.readFrom_singleton_word hr hk]; rfl
  · rw [hlast, Bus.readFrom_singleton_null hr hk]; rfl
  · rw [hlast, Bus.readFrom_singleton_hold hr hk]; rfl

/-- Settles O14: a storage device answers its cell and stays, so the visit keeps the list and the last cell. -/
theorem storageReadGivesTheLastCell : Obligations.StorageReadGivesTheLastCell :=
  fun _ _ hh hst => State.busRead_of_onlyStorage hh hst

/-- Settles O44: an instruction that does not write leaves the devices, or leaves them as its read does. -/
theorem onlyStoreAndOutWriteStorage : Obligations.OnlyStoreAndOutWriteStorage :=
  fun _ _ _ hw h => exec_cell_of_no_write hw h

/-- Settles O46: the fetch reads back the Word that STORE wrote. -/
theorem storedWordIsFetchedNext : Obligations.StoredWordIsFetchedNext := by
  intro s t a i hm hio hh hf ha hst hsome hx hd
  obtain rfl : s.busWrite (s.addressOf a) s.acc = t := Host.Outcome.next.inj hx
  exact step_of_word_written_at_pc (u := { s with pc := s.addressOf a }) ((State.running_iff _).2 ⟨ha, hf⟩) hm hh
    (hio ▸ hst) (hio ▸ hsome) hd

/-- Settles O11: the devices before and after place k are cut off, and the device there is a list of its own. -/
theorem portAddressesAreNarrowed : Obligations.PortAddressesAreNarrowed := by
  refine ⟨fun a => ⟨rfl, rfl⟩, fun a io v ds k d hd => ⟨by simp [Bus.write, hd], ?_⟩⟩
  obtain ⟨pre, post, rfl, rfl⟩ := exists_append_of_getElem? hd
  have hlen := Bus.readFrom_length (effectiveAddress a io) io 0 none pre
  have hplace : (Bus.read a io (pre ++ [d] ++ post)).2[pre.length]? = (Bus.read a io (pre ++ [d])).2[pre.length]? :=
    Bus.readFrom_append_getElem? _ _ _ _ _ (by simp)
  refine ⟨fun hno => ?_, fun hr u hu => ?_⟩
  · rw [hplace, Bus.read, Bus.readFrom_concat_of_not_responds hno, ← hlen, List.getElem?_concat_length]
  · rw [List.append_assoc, List.take_left] at hu
    have hpre : Bus.read a io pre = (.answered u, (Bus.read a io pre).2) := Prod.ext hu rfl
    have hlast : Bus.read a io (pre ++ [d]) = _ := Bus.readFrom_append_of_answered hpre [d]
    refine ⟨?_, fun hk => ?_, fun hpost => ?_⟩
    · rw [hplace, hlast, Bus.readFrom_singleton_snd hr, ← hlen]
      exact List.getElem?_concat_length
    · rw [Bus.readFrom_singleton_hold hr (Prod.ext hk rfl)] at hlast
      rw [Bus.read, Bus.readFrom_append_of_held hlast]
      rfl
    · have hend : (Bus.read a io (pre ++ [d] ++ post)).1 = (Bus.read a io (pre ++ [d])).1 :=
        Bus.readFrom_append_fst_of_none_responds (by simpa using hpost) none _
      refine ⟨fun w hw => ?_, fun hnull => ?_⟩
      · rw [hend, hlast, Bus.readFrom_singleton_word hr (Prod.ext hw rfl)]; rfl
      · rw [hend, hlast, Bus.readFrom_singleton_null hr (Prod.ext hnull rfl)]; rfl

/-- Settles O12: a bus write maps one function over the list. -/
theorem busWriteReachesEveryMatch : Obligations.BusWriteReachesEveryMatch := by
  refine fun a io v ds => ⟨fun k => List.getElem?_map, fun hno => ?_⟩
  rw [Bus.write, List.map_congr_left fun d hd => if_neg (by simp [hno d hd]), List.map_id']

/-- Settles O21: the hold ends the instruction before ACC is written. -/
theorem memoryOperandReadCanHold : Obligations.MemoryOperandReadCanHold := by
  intro s t i a k hi hread
  obtain ⟨hbus, hheld⟩ := readsBus_of_dataOperand hi
  obtain ⟨phase, addr, g, heq⟩ := exec_of_readsBus hbus
  have hexec : s.readIntoAcc i phase addr g = t.suspend (.execute i) k := by
    rw [State.readIntoAcc, readOf_of_dataOperand hi, hread, hheld]; rfl
  refine ⟨?_, fun j b => ?_⟩
  · rw [heq, hexec, State.busRead_eq _ _ _ _ hread]; rfl
  · rw [← s.busRead_cell (s.addressOf a), hread]

/-- Settles O45: the fetch is one memory read, and each instruction's meaning is at most one transaction. -/
theorem busTransactionsOfEachInstruction : Obligations.BusTransactionsOfEachInstruction := by
  intro s t hio hh
  have hmem : ∀ a, s.busRead a =
      ((Bus.read a false s.devices).1, { s with devices := (Bus.read a false s.devices).2 }) :=
    hio ▸ State.busRead_of_no_hold hh
  have hport := State.portRead_of_no_hold hh s.params.inPort
  refine ⟨fun h => ?_, fun i h => ?_, fun i a hi h => ?_, fun a h => ?_, fun x h => ?_, fun x h => ?_,
    fun i hr hw h => exec_devices_of_no_access hr hw h⟩
  · rw [State.fetchDecode_stopped_devices h, hmem]
  · have hready := State.fetchDecode_ready h
    rwa [hmem] at hready
  · rw [exec_devices_of_readsBus (readsBus_of_dataOperand hi).1 h, readOf_of_dataOperand hi, hmem]
  · cases h
    rw [State.busWrite_devices, hio]
  · refine ⟨?_, fun v hv => ?_⟩
    · rw [exec_devices_of_readsBus rfl h, readOf_of_no_dataOperand rfl, hport.2]
    · exact exec_inp_acc (hport.1.trans hv) h
  · cases h
    rfl

end Sys2Proof.Proofs.MemoryRules
end

section
/-! SUPPORT. The opcode map, the decoder and the encoder, and the packing rule: once for each, what it answers. -/

namespace Sys2Proof

/-! ### Decoder and encoder -/

theorem OpcodeMap.exists_mnemonicOf {m : OpcodeMap} {op : Opcode} (h : op ∈ m.map Prod.fst) :
    ∃ mn, m.mnemonicOf op = some mn := by
  obtain ⟨row, hrow, rfl⟩ := List.mem_map.1 h
  rw [← Option.isSome_iff_exists, OpcodeMap.mnemonicOf, Option.isSome_map, List.find?_isSome]
  exact ⟨row, hrow, beq_self_eq_true _⟩

theorem OpcodeMap.exists_opcodeOf {m : OpcodeMap} {mn : Mnemonic} (h : mn ∈ m.map Prod.snd) :
    ∃ op, m.opcodeOf mn = some op := by
  obtain ⟨row, hrow, rfl⟩ := List.mem_map.1 h
  rw [← Option.isSome_iff_exists, OpcodeMap.opcodeOf, Option.isSome_map, List.find?_isSome]
  exact ⟨row, hrow, beq_self_eq_true _⟩

theorem Mnemonic.mem_all (mn : Mnemonic) : mn ∈ Mnemonic.all := by
  cases mn <;> decide

theorem OpcodeMap.full.instr_wf {m : OpcodeMap} (h : m.full) (i : Instr) : i.wf m :=
  h.2 _ (Mnemonic.mem_all _)

theorem exists_decode_of_full {m : OpcodeMap} (h : m.full) (w : Word) : ∃ i, decode m w = .instr i := by
  obtain ⟨mn, hmn⟩ := OpcodeMap.exists_mnemonicOf (h.1 (opcodeField w))
  exact ⟨_, (decode_eq_instr m w (Instr.make mn (operandField w))).2 (by simp [hmn])⟩

theorem exists_encode_of_wf {m : OpcodeMap} {i : Instr} (h : i.wf m) : ∃ w, encode m i = some w := by
  obtain ⟨op, hop⟩ := OpcodeMap.exists_opcodeOf h
  exact ⟨packFields op i.operand, by rw [encode, hop]; rfl⟩

/-- Encoding is reading the map the other way and putting the two fields together. -/
theorem encode_eq_some (m : OpcodeMap) (w : Word) (i : Instr) :
    encode m i = some w ↔ m.opcodeOf i.mnemonic = some (opcodeField w) ∧ i.operand = operandField w := by
  rw [encode, Option.map_eq_some_iff]
  constructor
  · rintro ⟨op, hop, rfl⟩
    rw [opcodeField_pack, operandField_pack]
    exact ⟨hop, rfl⟩
  · rintro ⟨hop, hx⟩
    exact ⟨opcodeField w, hop, by rw [hx, pack_fields]⟩

/-- Under a two-way map, decoding and encoding read the same row of it (30_encoding R78). -/
theorem decode_eq_instr_iff_encode {m : OpcodeMap} (h : m.wf) (w : Word) (i : Instr) :
    decode m w = .instr i ↔ encode m i = some w := by
  rw [decode_eq_instr, encode_eq_some, OpcodeMap.mnemonicOf_eq m h, OpcodeMap.opcodeOf_eq m h, eq_comm (a := i.operand)]

/-! ### The packing rule -/

/-- Shifting the opcode by twelve bits is multiplying it by 4096 (30_encoding R77). -/
theorem packUnchecked_eq (op n : Nat) : packUnchecked op n =
    if op * 4096 ||| n > 0xFFFF then .error .encodingOverflow else .ok (BitVec.ofNat 16 (op * 4096 ||| n)) := by
  rw [packUnchecked, Nat.shiftLeft_eq]

/-- The two fields as one number. -/
theorem packFields_toNat (op : Opcode) (x : Operand) : (packFields op x).toNat = op.toNat * 4096 ||| x.toNat := by
  rw [packFields, BitVec.toNat_append, Nat.shiftLeft_eq]

/-- A field of twelve bits is packed without touching the opcode field (30_encoding R78). -/
theorem packPair_operand (op : Opcode) (x : Operand) : packPair op x.toNat = .ok (packFields op x) := by
  have hlt : ¬ (packFields op x).toNat > 0xFFFF := by omega
  have hx : x.toNat ≤ 0xFFF := by omega
  rw [packPair, packUnchecked_eq, ← packFields_toNat, if_neg hlt, BitVec.ofNat_toNat, BitVec.setWidth_eq]
  exact if_pos hx

/-- An operand of 13 to 16 bits would only reach into the opcode field, and is refused (30_encoding R79; 92 D19). -/
theorem packPair_of_wide {n : Nat} (op : Opcode) (hn : 0xFFF < n) (hle : n ≤ 0xFFFF) :
    packPair op n = .error .operandTooWide := by
  have hlt : ¬ op.toNat * 4096 ||| n > 0xFFFF := by
    have := Nat.or_lt_two_pow (n := 16) (show op.toNat * 4096 < 2 ^ 16 by omega) (show n < 2 ^ 16 by omega)
    omega
  rw [packPair, packUnchecked_eq, if_neg hlt]
  exact if_neg (by omega)

/-- An operand of more than 16 bits exceeds the Word, whatever the opcode (30_encoding R77). -/
theorem packPair_of_overflow {n : Nat} (op : Opcode) (hn : 0xFFFF < n) : packPair op n = .error .encodingOverflow := by
  have hgt : op.toNat * 4096 ||| n > 0xFFFF := Nat.lt_of_lt_of_le hn Nat.right_le_or
  rw [packPair, packUnchecked_eq, if_pos hgt]

/-- A pair that is packed has an operand of twelve bits. -/
theorem le_of_packPair_eq_ok {op : Opcode} {n : Nat} {w : Word} (h : packPair op n = .ok w) : n ≤ 0xFFF := by
  by_contra hn
  rcases Nat.lt_or_ge 0xFFFF n with hbig | hle
  · rw [packPair_of_overflow op hbig] at h; cases h
  · rw [packPair_of_wide op (by omega) hle] at h; cases h

end Sys2Proof
end

section
/-! SUPPORT. The assembler's parts: a record packed, a label, a mnemonic and a hex literal as tokens; and the one line
that the disassembler writes. -/

namespace Sys2Proof.Machine

/-! ### The fixup pass -/

/-- A record gives its address and the packing of its opcode with its resolved operand (30_encoding R89). -/
theorem fixup_eq_ok {symbols : List (Token × Nat)} {r : PendingRecord} {line : Nat × Word} :
    fixup symbols r = .ok line ↔ line.1 = r.address ∧
      ∃ n, resolve symbols r.operand = .ok n ∧ packPair r.opcode n = .ok line.2 := by
  obtain ⟨a, w⟩ := line
  rcases hr : resolve symbols r.operand with e | n
  · simp [fixup, hr]
  · rcases hp : packPair r.opcode n with (_ | _) | v <;> simp [fixup, hr, hp, eq_comm]

/-- The pass gives one line per record, in order, or none at all (30_encoding R89). -/
theorem fixupAll_eq_ok {symbols : List (Token × Nat)} {rs : List PendingRecord} {lines : List (Nat × Word)} :
    fixupAll symbols rs = .ok lines ↔ List.Forall₂ (fun r line => fixup symbols r = .ok line) rs lines := by
  induction rs generalizing lines with
  | nil => simp [fixupAll, eq_comm]
  | cons r rs ih =>
    rw [List.forall₂_cons_left_iff]
    rcases hr : fixup symbols r with e | line
    · simp [fixupAll, hr]
    · rcases hrs : fixupAll symbols rs with e | rest
      · simp [fixupAll, hr, hrs, ← ih]
      · simp [fixupAll, hr, hrs, ← ih, eq_comm (b := lines)]

/-! ### Labels and origins -/

/-- A token made by putting characters after a name is glued just where the name starts with a comment mark. -/
theorem gluedMark_concat (name : Token) (c : Char) : gluedMark (name ++ [c]) = (name.head? == some '#') := by
  rcases name with - | ⟨d, name⟩
  · simp [gluedMark]
  · by_cases hd : d = '#'
    · subst hd; cases name <;> simp [gluedMark]
    · simp [gluedMark, hd]

theorem classify_label (m : OpcodeMap) {name : Token} (h : name.head? ≠ some '#') :
    classify m (name ++ [':']) = .label name := by
  simp [classify, gluedMark_concat, h]

theorem classify_gluedLabel (m : OpcodeMap) {name : Token} (h : name.head? = some '#') :
    classify m (name ++ [':']) = .unknown := by
  simp [classify, gluedMark_concat, h]

theorem classify_org (m : OpcodeMap) : classify m ['o', 'r', 'g', '.'] = .directive := rfl

/-- A name with no binding yet is bound to the counter (30_encoding R85). -/
theorem declareLabel_of_new {st : AsmState} {name : Token} (h : lookupSymbol st.symbols name = none) :
    declareLabel st name = .ok { st with symbols := st.symbols ++ [(name, st.counter)] } := by
  rw [declareLabel, h]

/-- A second declaration of a name is refused (92 D17). -/
theorem declareLabel_of_bound {st : AsmState} {name : Token} {n : Nat} (h : lookupSymbol st.symbols name = some n) :
    declareLabel st name = .error (.duplicateLabel name) := by
  rw [declareLabel, h]

theorem assembleTokens_of_label {m : OpcodeMap} {st st' : AsmState} {t name : Token} (rest : List Token)
    (h : classify m t = .label name) (hd : declareLabel st name = .ok st') :
    assembleTokens m st (t :: rest) = assembleTokens m st' rest := by
  cases rest <;> simp [assembleTokens, h, hd]

theorem assembleTokens_of_label_error {m : OpcodeMap} {st : AsmState} {t name : Token} {e : AsmError}
    (rest : List Token) (h : classify m t = .label name) (hd : declareLabel st name = .error e) :
    assembleTokens m st (t :: rest) = .error e := by
  cases rest <;> simp [assembleTokens, h, hd]

theorem assembleTokens_of_unknown {m : OpcodeMap} {t : Token} (st : AsmState) (rest : List Token)
    (h : classify m t = .unknown) : assembleTokens m st (t :: rest) = .error (.unknownToken t) := by
  cases rest <;> simp [assembleTokens, h]

/-! ### A line of the disassembler -/

theorem mnemonicText_not_newline (mn : Mnemonic) : ∀ c ∈ mnemonicText mn, (c == '\n') = false := by
  cases mn <;> simp [mnemonicText]

theorem mnemonicText_not_whitespace (mn : Mnemonic) :
    ∀ c ∈ (mnemonicText mn).map Char.toLower, c.isWhitespace = false := by
  cases mn <;> simp [mnemonicText]

theorem hexDigit_ne_newline (d : BitVec 4) : hexDigit d ≠ '\n' := by
  obtain ⟨k⟩ := d
  revert k
  decide

theorem hexDigit_not_whitespace (d : BitVec 4) : (hexDigit d).toLower.isWhitespace = false := by
  obtain ⟨k⟩ := d
  revert k
  decide

/-- Reading a digit of the disassembler back, lower-cased, gives its value (30_encoding R80, R86). -/
theorem lowerHexDigit_hexDigit (d : BitVec 4) : lowerHexDigit (hexDigit d).toLower = some d.toNat := by
  obtain ⟨k⟩ := d
  revert k
  decide

/-- The operand token of a line of the disassembler, lower-cased. -/
def hexToken (x : Operand) : Token := ['0', 'x'] ++ (hex3 x).map Char.toLower

/-- The three hexadecimal digits of an operand field, read in base 16, are its value. -/
theorem integerLiteral_hexToken (x : Operand) : integerLiteral (hexToken x) = some x.toNat := by
  have hdigits : ((0 * 16 + (x.extractLsb' 8 4).toNat) * 16 + (x.extractLsb' 4 4).toNat) * 16 +
      (x.extractLsb' 0 4).toNat = x.toNat := by
    simp only [BitVec.extractLsb'_toNat, Nat.shiftRight_eq_div_pow]
    omega
  simp only [hexToken, hex3, integerLiteral, digitsValue, digitsFrom, List.cons_append, List.nil_append, List.map,
    lowerHexDigit_hexDigit, hdigits]

theorem operandToken_hexToken (x : Operand) : operandToken (hexToken x) = .ok (.value x.toNat) := by
  simp [operandToken, integerLiteral_hexToken]

/-- The lower-cased name of a mnemonic stands for it alone (30_encoding R73, R84). -/
theorem mnemonicToken_mnemonicText (m : OpcodeMap) (mn : Mnemonic) :
    mnemonicToken m ((mnemonicText mn).map Char.toLower) = m.opcodeOf mn := by
  have hfind : (Mnemonic.all.find? fun n => (mnemonicText n).map Char.toLower == (mnemonicText mn).map Char.toLower) =
      some mn := by
    cases mn <;> decide
  rw [mnemonicToken, hfind]
  rfl

/-- A mnemonic's name is no comment, label or directive. -/
theorem classify_mnemonicText {m : OpcodeMap} {mn : Mnemonic} {op : Opcode} (h : m.opcodeOf mn = some op) :
    classify m ((mnemonicText mn).map Char.toLower) = .instruction op := by
  have hmark : gluedMark ((mnemonicText mn).map Char.toLower) = false := by cases mn <;> rfl
  have hlabel : ((mnemonicText mn).map Char.toLower).getLast? ≠ some ':' := by cases mn <;> decide
  have hcomment : (mnemonicText mn).map Char.toLower ≠ ['#'] := by cases mn <;> decide
  have hdirective : ((mnemonicText mn).map Char.toLower).getLast? ≠ some '.' := by cases mn <;> decide
  simp [classify, -List.getLast?_map, hmark, hlabel, hcomment, hdirective, mnemonicToken_mnemonicText, h]

theorem textLines_instrText (i : Instr) : textLines (instrText i) = [instrText i] := by
  refine pieces_of_none _ _ ?_
  simp only [instrText, hex3, List.forall_mem_append]
  exact ⟨⟨mnemonicText_not_newline _, by simp⟩, by simp [hexDigit_ne_newline]⟩

theorem lineTokens_instrText (i : Instr) :
    lineTokens (instrText i) = [(mnemonicText i.mnemonic).map Char.toLower, hexToken i.operand] := by
  have hsplit : (instrText i).map Char.toLower =
      (mnemonicText i.mnemonic).map Char.toLower ++ ' ' :: hexToken i.operand := by
    simp [instrText, hexToken]
  have hhex : ∀ c ∈ hexToken i.operand, c.isWhitespace = false := by
    simp [hexToken, hex3, hexDigit_not_whitespace]
  have hne : (mnemonicText i.mnemonic).map Char.toLower ≠ [] := by cases i <;> simp [Instr.mnemonic, mnemonicText]
  rw [lineTokens, hsplit, pieces_append _ _ _ _ (mnemonicText_not_whitespace _) rfl, pieces_of_none _ _ hhex]
  simp [hne, hexToken]

/-- One line of an instruction's text places one record, at the counter (30_encoding R86). -/
theorem assembleLines_instrText {m : OpcodeMap} {i : Instr} {op : Opcode} {a : Nat} (ha : a ≤ 0xFFF)
    (hop : m.opcodeOf i.mnemonic = some op) :
    assembleLines m ⟨a, [], []⟩ [instrText i] = .ok ⟨a + 1, [], [⟨a, op, .value i.operand.toNat⟩]⟩ := by
  have hcomment : hexToken i.operand ≠ ['#'] := by simp [hexToken]
  simp [assembleLines, lineTokens_instrText, assembleTokens, classify_mnemonicText hop, hcomment,
    operandToken_hexToken, emit, ha]

/-- The text of an instruction assembles to its encoding (30_encoding R80, R83 to R89). -/
theorem assembleAt_instrText {m : OpcodeMap} {i : Instr} {w : Word} {a : Nat} (ha : a ≤ 0xFFF)
    (h : encode m i = some w) : assembleAt m a (instrText i) = .ok [(a, w)] := by
  obtain ⟨hop, hx⟩ := (encode_eq_some m w i).1 h
  have hpack : packPair (opcodeField w) i.operand.toNat = .ok w := by
    rw [packPair_operand, hx, pack_fields]
  have hfix : fixup [] ⟨a, opcodeField w, .value i.operand.toNat⟩ = .ok (a, w) := fixup_eq_ok.2 ⟨rfl, _, rfl, hpack⟩
  rw [assembleAt, textLines_instrText, assembleLines_instrText ha hop]
  exact fixupAll_eq_ok.2 (.cons hfix .nil)

theorem disassemble_eq_some {m : OpcodeMap} {w : Word} {text : List Char} :
    disassemble m w = some text ↔ ∃ i, decode m w = .instr i ∧ text = instrText i := by
  rcases h : decode m w with i | v <;> simp [disassemble, h, eq_comm]

end Sys2Proof.Machine
end

section
/-! SUPPORT. Execute in the terms of the operand field's value, where `ADDR_BITS` takes the whole field in. -/

namespace Sys2Proof.Machine

/-- The six instructions with a memory operand read it, and put a value of the Word read and of the old ACC in ACC;
LOAD the Word itself (41_load_store R130; 42_alu R140). -/
theorem exec_of_dataOperand {i : Instr} {x : Operand} (h : dataOperand i = some x) :
    ∃ g : Word → Word → Int, (∀ s, exec i s = .next (State.useRead i .data (s.addressOf x)
      (fun v t => t.writeAcc (g v t.acc)) (s.busRead (s.addressOf x)))) ∧
      (i = .load x → ∀ v a, g v a = v.toNat) := by
  cases i
  case load => cases h; exact ⟨fun v _ => v.toNat, fun _ => rfl, fun _ _ _ => rfl⟩
  case add => cases h; exact ⟨fun v a => a.toNat + v.toNat, fun _ => rfl, nofun⟩
  case sub => cases h; exact ⟨fun v a => a.toNat - v.toNat, fun _ => rfl, nofun⟩
  case and => cases h; exact ⟨fun v a => (a &&& v).toNat, fun _ => rfl, nofun⟩
  case or => cases h; exact ⟨fun v a => (a ||| v).toNat, fun _ => rfl, nofun⟩
  case xor => cases h; exact ⟨fun v a => (a ^^^ v).toNat, fun _ => rfl, nofun⟩
  all_goals cases h

theorem operand_of_dataOperand {i : Instr} {x : Operand} (h : dataOperand i = some x) : i.operand = x := by
  cases i
  case load | add | sub | and | or | xor => exact Option.some.inj h
  all_goals cases h

/-- A branch sets PC or leaves it, and does nothing else (43_branch R160 to R162). -/
theorem State.branch_eq (i : Instr) (s : State) :
    s.branch i = { s with pc := if branchTaken i s = true then s.addressOf i.operand else s.pc } := by
  rw [State.branch]
  split <;> rfl

end Sys2Proof.Machine
end

section
/-! The statements of 30_encoding: the fields, the opcode map, the packing rule, the disassembler and the assembler. -/

namespace Sys2Proof.Proofs.EncodingRules

open Sys2Proof Sys2Proof.Machine

/-- Settles O32: under a two-way map both directions read the same row. -/
theorem decodeEncodeAgree : Obligations.DecodeEncodeAgree :=
  fun _ hm => ⟨fun i w => (decode_eq_instr_iff_encode hm w i).2, fun i w => (decode_eq_instr_iff_encode hm w i).1,
    fun _ => exists_encode_of_wf⟩

/-- Settles O49: the disassembler's text is the text of the decoded instruction, and assembles to its encoding. -/
theorem disassembledTextAssemblesBack : Obligations.DisassembledTextAssemblesBack := by
  refine fun m hm => ⟨fun w text a ha h => ?_, fun hfull w => ?_⟩
  · obtain ⟨i, hi, rfl⟩ := disassemble_eq_some.1 h
    exact assembleAt_instrText ha ((decode_eq_instr_iff_encode hm w i).1 hi)
  · obtain ⟨i, hi⟩ := exists_decode_of_full hfull w
    exact ⟨_, disassemble_eq_some.2 ⟨i, hi, rfl⟩⟩

/-- Settles O33: an instruction is the decoding of its encoding and of no other Word. -/
theorem fullMapDecodesEveryWord : Obligations.FullMapDecodesEveryWord := by
  refine ⟨by decide, fun m hfull w => exists_decode_of_full hfull w, fun m hm hfull i => ?_⟩
  obtain ⟨w, hw⟩ := exists_encode_of_wf (hfull.instr_wf i)
  refine ⟨w, (decode_eq_instr_iff_encode hm w i).2 hw, fun w' hw' => ?_⟩
  rw [decode_eq_instr_iff_encode hm, hw] at hw'
  exact (Option.some.inj hw').symm

/-- Settles O36: a valid operand is a field of twelve bits, and the other two ranges are refused each by its test. -/
theorem validPairsComeBack : Obligations.ValidPairsComeBack := by
  refine ⟨fun op n hn => ?_, fun w => ?_, fun op n hn hle => packPair_of_wide op hn hle,
    fun op n hn => packPair_of_overflow op hn⟩
  · have hx : (BitVec.ofNat 12 n).toNat = n := by rw [BitVec.toNat_ofNat]; omega
    refine ⟨packFields op (BitVec.ofNat 12 n), ?_, opcodeField_pack _ _, by rw [operandField_pack, hx]⟩
    rw [← packPair_operand, hx]
  · rw [packPair_operand, pack_fields]

/-- Settles O50: the pass is a map over the records, and one that fails makes it fail. -/
theorem fixupGivesOneLinePerRecord : Obligations.FixupGivesOneLinePerRecord := by
  refine ⟨fun symbols rs lines => ?_, fun symbols rs r n hr hn hwide lines hlines => ?_,
    fun symbols a op name rs hname => ?_⟩
  · simp only [fixupAll_eq_ok, fixup_eq_ok]
  · obtain ⟨k, hk, rfl⟩ := List.getElem_of_mem hr
    have hall := fixupAll_eq_ok.1 hlines
    obtain ⟨-, n', hn', hpack⟩ := fixup_eq_ok.1 (hall.get hk (hall.length_eq ▸ hk))
    rw [List.get_eq_getElem, hn] at hn'
    cases hn'
    exact absurd (le_of_packPair_eq_ok hpack) (by omega)
  · simp [fixupAll, fixup, resolve, hname]

/-- Settles O51: the class of the token, and then what a declaration or a literal comes to. -/
theorem labelsAndOriginsSetTheCounter : Obligations.LabelsAndOriginsSetTheCounter := by
  refine fun m st rest => ⟨fun name hname hnew => ?_, fun name n hname hbound => ?_, fun name hname => ?_,
    fun t n ht => ?_, fun t ht => ?_, ?_⟩
  · exact assembleTokens_of_label rest (classify_label m hname) (declareLabel_of_new hnew)
  · exact assembleTokens_of_label_error rest (classify_label m hname) (declareLabel_of_bound hbound)
  · exact assembleTokens_of_unknown st rest (classify_gluedLabel m hname)
  · simp [assembleTokens, classify_org, ht]
  · simp [assembleTokens, classify_org, ht]
  · simp [assembleTokens, classify_org]

/-- Settles O30: the meanings of the six do not name their operand. -/
theorem ignoredOperandsChangeNothing : Obligations.IgnoredOperandsChangeNothing :=
  fun _ _ _ => ⟨rfl, rfl, rfl, rfl, rfl, rfl⟩

/-- Settles O31: the operand of a decoded instruction is the Word's low field, and is its own address. -/
theorem decodeSplitsTheWord : Obligations.DecodeSplitsTheWord := by
  refine ⟨fun w => ⟨opcodeField_toNat w, operandField_toNat w⟩, fun m w i h => ?_⟩
  obtain ⟨hmn, hx⟩ := (decode_eq_instr m w i).1 h
  have hn : i.operand.toNat = w.toNat % 4096 := by rw [← hx, operandField_toNat]
  refine ⟨hmn, hn, fun s hs => ?_⟩
  have haddr : s.addressOf i.operand = w.toNat % 4096 := by rw [s.addressOf_eq _ hs, hn]
  rw [← haddr]
  refine ⟨fun a r t ha hr => ?_, ?_, ?_, ?_, ?_⟩
  · obtain rfl := operand_of_dataOperand ha
    obtain ⟨g, hexec, hload⟩ := exec_of_dataOperand ha
    refine ⟨_, (hexec s).trans (by rw [hr]), ?_⟩
    rcases r with (- | v) | k
    · exact ⟨rfl, fun _ => rfl, nofun, nofun⟩
    · refine ⟨rfl, nofun, nofun, fun v' hv hi => ?_⟩
      cases hv
      rw [State.useRead, State.writeAcc_acc, hload hi, maskWord_word]
    · exact ⟨rfl, nofun, fun k' hk => by cases hk; rfl, nofun⟩
  · rintro a rfl; rfl
  · rintro a rfl; exact congrArg Host.Outcome.next (s.branch_eq (.bra a))
  · rintro a rfl; exact congrArg Host.Outcome.next (s.branch_eq (.brp a))
  · rintro a rfl; exact congrArg Host.Outcome.next (s.branch_eq (.brz a))

/-- Settles O34: the map's sixteen rows, one Word each. -/
theorem specWordsDecode : Obligations.SpecWordsDecode := by
  unfold Obligations.SpecWordsDecode
  decide

/-- Settles O35: the shift is a multiplication, and a value up to 0xFFFF is its own Word. -/
theorem packRule : Obligations.PackRule := by
  refine fun op n => ⟨fun h => ?_, fun h => ⟨BitVec.ofNat 16 (op * 4096 ||| n), ?_, ?_⟩⟩
  · rw [packUnchecked_eq, if_pos h]
  · rw [packUnchecked_eq, if_neg (by omega)]
  · rw [BitVec.toNat_ofNat]; omega

end Sys2Proof.Proofs.EncodingRules
end

section
/-! SUPPORT. The cycle: what a fetch held, a fetch without a row and a fetch that decodes come to, which fatal conditions
an instruction and a step can record, and one round of `run()`. -/

namespace Sys2Proof

/-- An opcode without a row is the named rejection of the Word (40_cycle R118). -/
theorem decode_of_no_row {m : OpcodeMap} {w : Word} (h : m.mnemonicOf (opcodeField w) = none) :
    decode m w = .illegalOpcode w := by
  simp [decode, h]

end Sys2Proof

namespace Sys2Proof.Machine

/-! ### Fetch -/

/-- PC written after a bus read: beside PC, the read has changed the devices and ended the hold. -/
theorem State.writePc_of_busRead {s t : State} {a : Nat} {r : ReadResult} (h : s.busRead a = (r, t)) (n : Nat) :
    t.writePc n = { s with pc := s.wrapAddress n, devices := t.devices, hold := none } := by
  rw [State.busRead_eq _ _ _ _ h]
  rfl

theorem State.writePc_of_busRead_of_no_hold {s t : State} {a : Nat} {r : ReadResult} (hh : s.hold = none)
    (h : s.busRead a = (r, t)) (n : Nat) :
    t.writePc n = { s with pc := s.wrapAddress n, devices := t.devices } := by
  rw [State.writePc_of_busRead h, ← hh]

/-- A fetch that its device holds leaves PC and records the hold (20_memory R53). -/
theorem stepInstr_of_held {s t : State} {k : Nat} (h : s.busRead s.pc = (.held k, t)) :
    stepInstr s = .next (t.suspend .fetch k) := by
  simp [stepInstr, State.fetchDecode, h]

/-- A fetched Word whose opcode has no row is fatal, with PC incremented (40_cycle R118). -/
theorem stepInstr_of_no_row {s t : State} {w : Word} (h : s.busRead s.pc = (.answered (some w), t))
    (hw : s.params.opcodeMap.mnemonicOf (opcodeField w) = none) :
    stepInstr s = .next ((t.writePc (s.pc + 1)).raise (.illegalOpcode w)) := by
  simp [stepInstr, State.fetchDecode, h, decode_of_no_row hw]

theorem stepInstr_next (s : State) : ∃ t, stepInstr s = .next t := by
  rw [stepInstr]
  split
  · exact ⟨_, rfl⟩
  · exact exec_next _ _

theorem step_next (s : State) : ∃ t, step s = .next t := by
  cases hr : s.running with
  | false => exact ⟨s, step_of_not_running s hr⟩
  | true =>
    rcases hh : s.hold with - | ⟨- | i, k⟩
    · rw [step_of_running s hr hh]; exact stepInstr_next _
    · rw [step_of_fetch_hold s k hr hh]; exact stepInstr_next _
    · rw [step_of_execute_hold s i k hr hh]; exact exec_next _ _

/-! ### Fatal conditions -/

/-- An instruction keeps the fault status or records NoData (60_exceptions R182). -/
theorem exec_fault {i : Instr} {s t : State} (h : exec i s = .next t) :
    t.fault = s.fault ∨ ∃ phase addr, t.fault = some (.noData phase addr) := by
  obtain ⟨f, hf, rfl⟩ := meaning_of_exec h
  cases hf with
  | halt | store | out | compute => exact .inl rfl
  | branch i hi => left; rw [State.branch_eq]
  | read i phase addr g hw hr =>
    rcases s.readIntoAcc_cases i phase addr g with ⟨k, -, h⟩ | ⟨-, h⟩ | ⟨v, -, h⟩ <;> rw [h]
    · exact .inl (readOf_fault i s)
    · exact .inr ⟨phase, addr s.params, rfl⟩
    · exact .inl (readOf_fault i s)

theorem exec_ne_illegalOpcode {i : Instr} {s t : State} (h : exec i s = .next t) (hs : s.fault = none) (w : Word) :
    t.fault ≠ some (.illegalOpcode w) := by
  rcases exec_fault h with hk | ⟨phase, addr, hk⟩ <;> rw [hk]
  · rw [hs]; nofun
  · nofun

/-- IllegalOpcode records a Word that the map does not decode (60_exceptions R181). -/
theorem stepInstr_illegalOpcode {s t : State} {w : Word} (hs : s.fault = none) (h : stepInstr s = .next t)
    (ht : t.fault = some (.illegalOpcode w)) : decode s.params.opcodeMap w = .illegalOpcode w := by
  rcases stepInstr_cases h with ⟨k, u, hu, rfl⟩ | ⟨u, hu, rfl⟩ | ⟨v, u, hu, hd, rfl⟩ | ⟨v, u, i, hu, -, hx⟩ <;>
    obtain rfl : (s.busRead s.pc).2 = u := congrArg Prod.snd hu
  · exact absurd (hs.symm.trans ht) nofun
  · cases ht
  · cases ht
    exact hd
  · exact absurd ht (exec_ne_illegalOpcode hx hs w)

/-- A step that answers IllegalOpcode found it recorded, or has a Word that the map does not decode. -/
theorem step_illegalOpcode {s t : State} {w : Word} (h : step s = .next t)
    (ht : t.fault = some (.illegalOpcode w)) :
    s.fault = some (.illegalOpcode w) ∨ decode s.params.opcodeMap w = .illegalOpcode w := by
  have waiting : s.running = true → s.environmentActs.fault = none := fun hr =>
    s.environmentActs_fault.trans (s.running_iff.1 hr).2
  rcases step_cases h with ⟨-, rfl⟩ | ⟨hr, -, hx⟩ | ⟨k, hr, -, hx⟩ | ⟨i, k, hr, -, hx⟩
  · exact .inl ht
  · exact .inr (stepInstr_illegalOpcode (s.running_iff.1 hr).2 hx ht)
  · exact .inr (s.environmentActs_params ▸ stepInstr_illegalOpcode (waiting hr) hx ht)
  · exact absurd ht (exec_ne_illegalOpcode hx (waiting hr) w)

/-! ### One round of `run()` -/

theorem State.running_eq_false_iff (s : State) : s.running = false ↔ s.active = false ∨ s.fault ≠ none := by
  rw [← Bool.not_eq_true, State.running_iff, not_and_or, Bool.not_eq_true]

/-- A running machine steps, and the other rounds go on from there (40_cycle R115). -/
theorem runFor_succ_of_running (n : Nat) {s t : State} (hr : s.running = true) (h : step s = .next t) :
    runFor (n + 1) s = runFor n t := by
  simp [runFor, hr, h]

end Sys2Proof.Machine
end

section
/-! The statements of 40_cycle: fetch, decode, the opcode without a row, HALT, and `run()`. -/

namespace Sys2Proof.Proofs.CycleRules

open Sys2Proof Sys2Proof.Machine

/-- Settles O37: only the decode of a fetched Word raises IllegalOpcode, and a full map decodes every Word. -/
theorem illegalOpcodeOnlyUnderAPartialMap : Obligations.IllegalOpcodeOnlyUnderAPartialMap := by
  refine ⟨fun s t w hf ha hh hread hw => ?_, fun s t w hfull h ht => ?_⟩
  · rw [step_of_running s (s.running_iff.2 ⟨ha, hf⟩) hh, stepInstr_of_no_row hread hw,
      State.writePc_of_busRead_of_no_hold hh hread]
    rfl
  · rcases step_illegalOpcode h ht with hs | hd
    · exact hs
    · obtain ⟨i, hi⟩ := exists_decode_of_full hfull w
      exact absurd (hi.symm.trans hd) nofun

/-- Settles O6: fetch and execute answer a next state, whatever they come to. -/
theorem stepAlwaysAnswersNext : Obligations.StepAlwaysAnswersNext :=
  step_next

/-- Settles O24: the meaning of HALT is `State.halt`. -/
theorem haltResult : Obligations.HaltResult :=
  fun _ _ => rfl

/-- Settles O38: the fetch changes the devices only, before PC is incremented. -/
theorem stepRunsTheDecodedInstruction : Obligations.StepRunsTheDecodedInstruction := by
  intro s t w i hf ha hh hread hd
  rw [step_of_running s (s.running_iff.2 ⟨ha, hf⟩) hh, stepInstr_of_decode hread hd,
    State.writePc_of_busRead_of_no_hold hh hread]
  rfl

/-- Settles O39: the step tests the fault status and the run flag first. -/
theorem stoppedMachineStays : Obligations.StoppedMachineStays :=
  fun s hs => step_of_not_running s (s.running_eq_false_iff.2 hs.symm)

/-- Settles O41: the hold comes before the PC increment, and the fetch taken up again is a fetch after the
environment's act. -/
theorem fetchCanHold : Obligations.FetchCanHold := by
  refine ⟨fun s t k hf ha hh hread => ?_, fun s t k w i hf ha hh hread hd => ?_⟩
  · rw [step_of_running s (s.running_iff.2 ⟨ha, hf⟩) hh, stepInstr_of_held hread, State.busRead_eq _ _ _ _ hread]
    rfl
  · rw [← s.environmentActs_pc] at hread
    rw [← s.environmentActs_params] at hd
    rw [step_of_fetch_hold s k (s.running_iff.2 ⟨ha, hf⟩) hh, stepInstr_of_decode hread hd,
      State.writePc_of_busRead hread, s.environmentActs_wrapAddress, s.environmentActs_pc]
    rfl

/-- Settles O47: the loop's test is made before the step. -/
theorem runTestsBeforeEachStep : Obligations.RunTestsBeforeEachStep :=
  fun n s => ⟨fun hs => runFor_of_not_running n (s.running_eq_false_iff.2 hs),
    fun _ ha hf h => runFor_succ_of_running n (s.running_iff.2 ⟨ha, hf⟩) h⟩

end Sys2Proof.Proofs.CycleRules
end

section
/-! SUPPORT. What a memory operand's Word makes of the state, and what a bus write makes of one device. -/

namespace Sys2Proof.Machine

/-! ### The memory operand -/

/-- A bus read leaves every storage cell. -/
theorem State.cell_of_busRead {s t : State} {a : Nat} {r : ReadResult} (h : s.busRead a = (r, t)) (k b : Nat) :
    t.cell k b = s.cell k b := by
  rw [← s.busRead_cell a, h]

/-- ACC written after a bus read: beside ACC and the flags, the read has changed the devices and ended the hold. -/
theorem State.writeAcc_of_busRead {s t : State} {a : Nat} {r : ReadResult} (h : s.busRead a = (r, t)) (v : Int) :
    t.writeAcc v = s.accResult (maskWord v) t.devices := by
  rw [State.busRead_eq _ _ _ _ h]
  rfl

/-- An instruction that puts a value of its memory operand's Word and of the old ACC in ACC does so and no more, where
the read answers a Word (41_load_store R130; 42_alu R140). -/
theorem State.withMemory_writeAcc_of_busRead {s t : State} {x : Operand} {m : Word}
    (h : s.busRead (s.addressOf x) = (.answered (some m), t)) (i : Instr) (g : Word → Word → Int) :
    s.withMemory i x (fun v u => u.writeAcc (g v u.acc)) = s.accResult (maskWord (g m s.acc)) t.devices := by
  have hacc : t.acc = s.acc := by rw [State.busRead_eq _ _ _ _ h]
  rw [State.withMemory, h, ← hacc, ← State.writeAcc_of_busRead h]
  rfl

/-! ### One device under a bus write -/

/-- What a bus write at the effective address `a` makes of one device (20_memory R46). -/
def Device.busWritten (a : Nat) (io : Bool) (v : Word) (d : Device) : Device :=
  if d.responds a io then d.withKind (d.kind.write a v) else d

theorem Bus.write_eq_map (a : Nat) (io : Bool) (v : Word) (ds : List Device) :
    Bus.write a io v ds = ds.map (Device.busWritten (effectiveAddress a io) io v) := rfl

theorem Device.busWritten_of_responds {a : Nat} {io : Bool} {d : Device} (h : d.responds a io = true) (v : Word) :
    d.busWritten a io v = d.withKind (d.kind.write a v) := if_pos h

theorem Device.busWritten_of_not_responds {a : Nat} {io : Bool} {d : Device} (h : d.responds a io = false) (v : Word) :
    d.busWritten a io v = d := if_neg (by simp [h])

@[simp] theorem Device.busWritten_claims (a : Nat) (io : Bool) (v : Word) (d : Device) :
    (d.busWritten a io v).claims = d.claims := by
  rw [Device.busWritten]
  split <;> rfl

/-- A storage device that responds holds the Word written at the address. -/
theorem Device.busWritten_cell_same {a : Nat} {io : Bool} {d : Device} (hw : d.wf) (hr : d.responds a io = true)
    (hs : d.isStorage = true) (v : Word) : (d.busWritten a io v).cell a = some v := by
  rw [Device.busWritten_of_responds hr, d.write_cell_same a v hw hs]

/-- A bus write leaves the cells at every other address. -/
theorem Device.busWritten_cell_other {a b : Nat} (hb : b ≠ a) (io : Bool) (v : Word) (d : Device) :
    (d.busWritten a io v).cell b = d.cell b := by
  rw [Device.busWritten]
  split
  · exact d.write_cell_other a b v hb
  · rfl

end Sys2Proof.Machine
end

section
/-! The statements of 41_load_store: LOAD and STORE. -/

namespace Sys2Proof.Proofs.LoadStoreRules

open Sys2Proof Sys2Proof.Machine

/-- Settles O16: with io_request clear, STORE is the memory write of ACC, which maps one function over the devices. -/
theorem storeWritesEveryMatchingDevice : Obligations.StoreWritesEveryMatchingDevice := by
  intro s a hio hm
  have hdev : (s.busWrite (s.addressOf a) s.acc).devices =
      s.devices.map (Device.busWritten (s.addressOf a) false s.acc) := by
    rw [State.busWrite_devices, hio, Bus.write_eq_map]; rfl
  refine ⟨s.busWrite (s.addressOf a) s.acc, rfl, rfl, by rw [hdev, List.length_map], fun k d hd => ?_⟩
  have hplace : (s.busWrite (s.addressOf a) s.acc).devices[k]? = some (d.busWritten (s.addressOf a) false s.acc) := by
    rw [hdev, List.getElem?_map, hd]; rfl
  exact ⟨_, hplace, d.busWritten_claims _ _ _,
    fun hno => Device.busWritten_of_not_responds hno _,
    fun hr => Device.busWritten_of_responds hr _,
    fun hr hst => Device.busWritten_cell_same (hm d (List.mem_of_getElem? hd)) hr hst _,
    fun b hb => Device.busWritten_cell_other hb _ _ d⟩

/-- Settles O15: the read changes the devices only and no cell of them, and ACC takes the Word as it is. -/
theorem loadPutsTheWordInAcc : Obligations.LoadPutsTheWordInAcc := by
  refine fun s t a m hread => ⟨?_, State.cell_of_busRead hread⟩
  calc exec (.load a) s
      = .next (s.accResult (maskWord m.toNat) t.devices) :=
        congrArg Host.Outcome.next (State.withMemory_writeAcc_of_busRead hread (.load a) fun v _ => v.toNat)
    _ = .next (s.accResult m t.devices) := by rw [maskWord_word]

end Sys2Proof.Proofs.LoadStoreRules
end

section
/-! SUPPORT. An ALU instruction's state from the value it gives ACC (42_alu). -/

namespace Sys2Proof.Machine

/-- An instruction that combines ACC with its memory operand ends with the combined value's Word in ACC, where the
read answers a Word (42_alu R140). -/
theorem exec_of_memory_operand {i : Instr} {s t : State} {x : Operand} {m w : Word} (g : Word → Word → Int)
    (hi : exec i s = .next (s.withMemory i x fun v u => u.writeAcc (g v u.acc)))
    (h : s.busRead (s.addressOf x) = (.answered (some m), t)) (hw : maskWord (g m s.acc) = w) :
    exec i s = .next (s.accResult w t.devices) := by
  rw [hi, State.withMemory_writeAcc_of_busRead h, hw]

/-- ACC written with no read before it: the devices and the hold stay as they are. -/
theorem State.writeAcc_eq_accResult (v : Int) (s : State) :
    s.writeAcc v = { s.accResult (maskWord v) s.devices with hold := s.hold } := rfl

theorem exec_not (x : Operand) (s : State) :
    exec (.not x) s = .next { s.accResult (~~~s.acc) s.devices with hold := s.hold } := by
  rw [← maskWord_word (~~~s.acc), ← State.writeAcc_eq_accResult]
  rfl

/-- One lemma for both values of SHIFT_SWAPPED (92 D7). -/
theorem exec_shl (x : Operand) (s : State) :
    exec (.shl x) s = .next
      { s.accResult (if s.params.shiftSwapped then s.acc >>> 1 else s.acc <<< 1) s.devices with hold := s.hold } := by
  rw [← maskWord_shiftRight, ← maskWord_shiftLeft, ← apply_ite maskWord, ← State.writeAcc_eq_accResult]
  rfl

theorem exec_shr (x : Operand) (s : State) :
    exec (.shr x) s = .next
      { s.accResult (if s.params.shiftSwapped then s.acc <<< 1 else s.acc >>> 1) s.devices with hold := s.hold } := by
  rw [← maskWord_shiftRight, ← maskWord_shiftLeft, ← apply_ite maskWord, ← State.writeAcc_eq_accResult]
  rfl

end Sys2Proof.Machine
end

section
/-! The statements of 42_alu: the results of the ALU instructions. -/

namespace Sys2Proof.Proofs.AluRules

open Sys2Proof Sys2Proof.Machine

/-- Settles O17: the masked sum and difference are those of Words, and masking is the residue modulo 2^16. -/
theorem addAndSubResults : Obligations.AddAndSubResults := by
  refine fun s t a m hread => ⟨?add, ?sub, BitVec.toNat_add _ _, ?residue, State.cell_of_busRead hread⟩
  case add => exact exec_of_memory_operand (fun v acc => acc.toNat + v.toNat) rfl hread (maskWord_add _ _)
  case sub => exact exec_of_memory_operand (fun v acc => acc.toNat - v.toNat) rfl hread (maskWord_sub _ _)
  case residue => rw [← maskWord_sub, maskWord_toNat]

/-- Settles O18: the combination of two Words is a Word, which masking leaves as it is. -/
theorem logicResults : Obligations.LogicResults := by
  refine fun s t a m hread => ⟨?and, ?or, ?xor, State.cell_of_busRead hread⟩
  case and => exact exec_of_memory_operand (fun v acc => (acc &&& v).toNat) rfl hread (maskWord_word _)
  case or => exact exec_of_memory_operand (fun v acc => (acc ||| v).toNat) rfl hread (maskWord_word _)
  case xor => exact exec_of_memory_operand (fun v acc => (acc ^^^ v).toNat) rfl hread (maskWord_word _)

/-- Settles O19: each writes ACC with no read before it, and SHIFT_SWAPPED chooses the shift. -/
theorem notAndShiftResults : Obligations.NotAndShiftResults := by
  refine fun s x => ⟨exec_not x s, fun hs => ?straight, fun hs => ?swapped, ?bit15, ?bit0⟩
  case straight => rw [exec_shl, exec_shr, hs]; exact ⟨rfl, rfl⟩
  case swapped => rw [exec_shl, exec_shr, hs]; exact ⟨rfl, rfl⟩
  case bit15 => rw [BitVec.getLsbD_ushiftRight, BitVec.getLsbD_of_ge _ _ (by decide)]
  case bit0 => simp

end Sys2Proof.Proofs.AluRules
end

section
/-! SUPPORT. Where a branch goes, and what the flags its test reads say of ACC (43_branch). -/

namespace Sys2Proof.Machine

/-- A branch changes PC at most, whether it is taken or not (43_branch R160 to R162). -/
theorem exec_of_isBranch {i : Instr} (hi : isBranch i = true) (s : State) :
    exec i s = .next { s with pc := if branchTaken i s = true then s.addressOf i.operand else s.pc } := by
  rw [← State.branch_eq]
  cases i
  case bra | brp | brz => rfl
  all_goals cases hi

/-- P tests bit 15, so it holds of the lower half of the Words, zero included (10_state R24). -/
theorem positiveFlag_iff_lt (v : Word) : positiveFlag v = true ↔ v.toNat < 0x8000 := by
  have hmsb : v.getLsbD 15 = v.msb := v.msb_eq_getLsbD_last.symm
  rw [positiveFlag_iff, hmsb, BitVec.msb_eq_false_iff_two_mul_lt]
  omega

theorem zeroFlag_iff_toNat (v : Word) : zeroFlag v = true ↔ v.toNat = 0 :=
  (zeroFlag_iff v).trans BitVec.toNat_eq

end Sys2Proof.Machine
end

section
/-! The statements of 43_branch: BRA, BRP and BRZ. -/

namespace Sys2Proof.Proofs.BranchRules

open Sys2Proof Sys2Proof.Machine

/-- Settles O22: each is the one branch, with the test of its own instruction. -/
theorem branchResults : Obligations.BranchResults :=
  fun s _ => ⟨exec_of_isBranch rfl s, exec_of_isBranch rfl s, exec_of_isBranch rfl s⟩

/-- Settles O23: the flag a branch tests is that of ACC, which is a bound or an equation on ACC. -/
theorem branchesTestAcc : Obligations.BranchesTestAcc := by
  intro s a hflags
  obtain ⟨hz, hp⟩ := hflags
  obtain ⟨-, hbrp, hbrz⟩ := branchResults s a
  constructor
  · rw [hbrp, hp, if_congr (positiveFlag_iff_lt s.acc) rfl rfl]
  · rw [hbrz, hz, if_congr (zeroFlag_iff_toNat s.acc) rfl rfl]

end Sys2Proof.Proofs.BranchRules
end

section
/-! SUPPORT. INP and OUT from the bus transaction each makes, the console of 92 D12 at its ports, and a read that goes
on from a hold (44_io; 20_memory R53). -/

namespace Sys2Proof.Machine

/-! ### Ports and low bytes -/

/-- A port address is its own effective address (20_memory R44). -/
@[simp] theorem effectiveAddress_port (p : Port) : effectiveAddress p.toNat true = p.toNat :=
  Nat.mod_eq_of_lt p.isLt

theorem lowByte_toNat (v : Word) : (lowByte v).toNat = v.toNat % 256 := by
  rw [lowByte, BitVec.toNat_setWidth_of_le (by decide), BitVec.extractLsb'_toNat, Nat.shiftRight_zero]

theorem lowByte_getLsbD_15 (v : Word) : (lowByte v).getLsbD 15 = false := by
  rw [lowByte, BitVec.getLsbD_setWidth, BitVec.getLsbD_of_ge _ 15 (by decide), Bool.and_false]

/-- A byte that arrives as a Word is the low byte of that Word (92 D6). -/
@[simp] theorem lowByte_setWidth (b : Byte) : lowByte (b.setWidth 16) = b.setWidth 16 := by
  apply BitVec.eq_of_toNat_eq
  rw [lowByte_toNat, BitVec.toNat_setWidth_of_le (by decide)]
  exact Nat.mod_eq_of_lt b.isLt

/-! ### INP -/

theorem State.portRead_of_answered {s t : State} {p : Port} {v : Option Word}
    (h : s.setIoRequest.busRead p.toNat = (.answered v, t)) : s.portRead p = (.answered v, t.clearIoRequest) := by
  simp only [State.portRead, h]

theorem State.portRead_of_held {s t : State} {p : Port} {k : Nat}
    (h : s.setIoRequest.busRead p.toNat = (.held k, t)) : s.portRead p = (.held k, t) := by
  simp only [State.portRead, h]

/-- INP is one port read and its use, whatever its operand field holds (44_io R170). -/
theorem exec_inp_eq_useRead (x : Operand) (s : State) :
    exec (.inp x) s = .next (State.useRead (.inp 0#12) .port s.params.inPort.toNat
      (fun v t => t.writeAcc (lowByte v).toNat) (s.portRead s.params.inPort)) := rfl

/-- An INP whose port read answers a Word puts its low byte in ACC (44_io R170, R172). -/
theorem exec_inp_of_answered {s t : State} {v : Word}
    (h : s.setIoRequest.busRead s.params.inPort.toNat = (.answered (some v), t)) (x : Operand) :
    exec (.inp x) s = .next { s.accResult (lowByte v) t.devices with ioRequest := false } := by
  have hmask : maskWord (lowByte v).toNat = lowByte v := maskWord_word _
  calc exec (.inp x) s
      = .next (t.clearIoRequest.writeAcc (lowByte v).toNat) := by
        rw [exec_inp_eq_useRead, State.portRead_of_answered h, State.useRead]
    _ = .next { t.writeAcc (lowByte v).toNat with ioRequest := false } := rfl
    _ = .next { s.accResult (lowByte v) t.devices with ioRequest := false } := by
        rw [State.writeAcc_of_busRead h, hmask]; rfl

/-- An INP whose port read is held records the hold with io-request still set (44_io R173). -/
theorem exec_inp_of_held {s t : State} {k : Nat}
    (h : s.setIoRequest.busRead s.params.inPort.toNat = (.held k, t)) (x : Operand) :
    exec (.inp x) s = .next { s with
      ioRequest := true, devices := t.devices, hold := some ⟨.execute (.inp 0#12), k⟩ } := by
  calc exec (.inp x) s
      = .next (t.suspend (.execute (.inp 0#12)) k) := by
        rw [exec_inp_eq_useRead, State.portRead_of_held h, State.useRead]
    _ = _ := by rw [State.busRead_eq _ _ _ _ h]; rfl

/-! ### The platform of 92 D12 -/

/-- A device that does not respond is passed by a visit. -/
theorem Bus.readFrom_cons_of_not_responds {a : Nat} {io : Bool} {d : Device} (h : d.responds a io = false)
    (r : Option Word) (ds : List Device) :
    Bus.readFrom a io 0 r (d :: ds) = Bus.past d (Bus.readFrom a io 0 r ds) := by
  simp [Bus.readFrom, h]

/-- With none on hold, a port read that the first of two devices does not answer is a read of the second. -/
theorem State.busRead_port_of_second_device {s : State} {d e : Device} {p : Port} (hh : s.hold = none)
    (hdev : s.devices = [d, e]) (hd : d.responds p.toNat true = false) :
    s.setIoRequest.busRead p.toNat = ((Bus.readFrom p.toNat true 0 none [e]).1.shift,
      { s.setIoRequest with devices := d :: (Bus.readFrom p.toNat true 0 none [e]).2 }) := by
  rw [State.busRead_of_no_hold (s := s.setIoRequest) hh, State.setIoRequest_ioRequest, State.setIoRequest_devices,
    hdev, Bus.read, effectiveAddress_port, Bus.readFrom_cons_of_not_responds hd]
  rfl

/-- A device of one range of memory answers no port (20_memory R40). -/
theorem memory_claim_not_responds (base size a : Nat) (kind : DeviceKind) :
    Device.responds ⟨[⟨false, base, size⟩], kind⟩ a true = false := rfl

/-- The console answers its input port. -/
theorem console_responds (inPort outPort : Port) (kind : DeviceKind) :
    Device.responds ⟨[⟨true, inPort.toNat, 1⟩, ⟨true, outPort.toNat, 1⟩], kind⟩ inPort.toNat true = true := by
  simp [Device.responds, Claim.covers]

/-- A read of the input port hands out the console's next input byte (92 D12). -/
theorem console_read_input (inPort outPort : Port) (b : Byte) (rest : List Byte) (output : List Word) :
    DeviceKind.read inPort.toNat (.console inPort outPort (b :: rest) output) =
      (.word (b.setWidth 16), .console inPort outPort rest output) := by
  simp [DeviceKind.read]

/-- A read of the input port is held while there is no input (92 D12). -/
theorem console_read_no_input (inPort outPort : Port) (output : List Word) :
    DeviceKind.read inPort.toNat (.console inPort outPort [] output) = (.hold, .console inPort outPort [] output) := by
  simp [DeviceKind.read]

/-! ### One device under OUT -/

/-- After OUT each device is the one before, under one bus write at the output port (44_io R171; 20_memory R46). -/
theorem State.portWrite_devices_eq_map (p : Port) (v : Word) (s : State) :
    (s.portWrite p v).devices = s.devices.map (Device.busWritten p.toNat true v) := by
  rw [State.portWrite_devices, Bus.write_eq_map, effectiveAddress_port]

/-- A console that answers its output port has the Word appended to its output (92 D12). -/
theorem Device.busWritten_console {inPort outPort : Port} {input : List Byte} {output : List Word} {d : Device}
    (hr : d.responds outPort.toNat true = true) (hk : d.kind = .console inPort outPort input output) (v : Word) :
    (d.busWritten outPort.toNat true v).kind = .console inPort outPort input (output ++ [v]) := by
  rw [Device.busWritten_of_responds hr, Device.withKind_kind, hk, DeviceKind.write, if_pos rfl]

/-! ### A read that goes on -/

/-- The environment acts on the device that blocks, and on no other (44_io R173). -/
theorem State.environmentActs_devices_of_hold {s : State} {stage : HoldStage} {k : Nat}
    (hh : s.hold = some ⟨stage, k⟩) : s.environmentActs.devices =
      s.devices.modify k fun d => d.withKind (d.kind.await (Config.arrivals s.arrivals)) := by
  simp only [State.environmentActs, hh]

/-- A read on hold at place `k` goes on as a read of the devices from that place on (20_memory R53). -/
theorem State.busRead_of_hold {s : State} {stage : HoldStage} {k : Nat} (hh : s.hold = some ⟨stage, k⟩) (a : Nat) :
    s.busRead a = ((Bus.read a s.ioRequest (s.devices.drop k)).1.after k, { s with
      devices := s.devices.take k ++ (Bus.read a s.ioRequest (s.devices.drop k)).2, hold := none }) := by
  have hstart : s.resumePoint = k := by rw [State.resumePoint, hh]
  rw [State.busRead, hstart, Bus.readFrom_skip]
  rfl

/-- The first device, if it responds, is read whatever devices come after it. -/
theorem Bus.readFrom_cons_getElem?_zero {a : Nat} {io : Bool} {d : Device} (h : d.responds a io = true)
    (r : Option Word) (ds : List Device) :
    (Bus.readFrom a io 0 r (d :: ds)).2[0]? = some (d.withKind (d.kind.read a).2) := by
  have hfirst : (Bus.readFrom a io 0 r (d :: ds)).2[0]? = (Bus.readFrom a io 0 r [d]).2[0]? :=
    Bus.readFrom_append_getElem? a io r [d] ds Nat.zero_lt_one
  rw [hfirst, Bus.readFrom_singleton_snd h]
  rfl

end Sys2Proof.Machine
end

section
/-! The statements of 44_io: INP, OUT, and an instruction blocked in its read. -/

namespace Sys2Proof.Proofs.PortIoRules

open Sys2Proof Sys2Proof.Machine

/-- Settles O25: after the answered port read, ACC takes the low byte and io-request is cleared. -/
theorem inpPutsTheByteInAcc : Obligations.InpPutsTheByteInAcc :=
  fun _ _ x v hread =>
    ⟨exec_inp_of_answered hread x, lowByte_toNat v, lowByte_getLsbD_15 v,
      State.cell_of_busRead (s := State.setIoRequest _) hread⟩

/-- Settles O27: the hold comes before the port read's last line, so io-request stays set. -/
theorem inpHolds : Obligations.InpHolds :=
  fun _ _ x _ hread => exec_inp_of_held hread x

/-- Settles O28: the RAM does not answer the port, so the console's answer is the bus's. -/
theorem inpOnTheReferenceConsole : Obligations.InpOnTheReferenceConsole := by
  intro s x size cells outPort input output hh hdev
  have hread := State.busRead_port_of_second_device hh hdev (p := s.params.inPort) (memory_claim_not_responds _ _ _ _)
  refine ⟨fun b rest hin => ?input, fun hin => ?noInput⟩ <;> subst hin
  case input =>
    rw [Bus.readFrom_singleton_word (console_responds _ _ _) (console_read_input _ _ _ _ _)] at hread
    rw [exec_inp_of_answered hread, lowByte_setWidth]
    rfl
  case noInput =>
    rw [Bus.readFrom_singleton_hold (console_responds _ _ _) (console_read_no_input _ _ _)] at hread
    rw [exec_inp_of_held hread]
    simp only [Device.withKind, ← hdev]

/-- Settles O29: OUT is the port write of ACC's low byte, which maps one function over the devices. -/
theorem outWritesEveryMatchingDevice : Obligations.OutWritesEveryMatchingDevice := by
  intro s x hm
  have hdev := s.portWrite_devices_eq_map s.params.outPort (lowByte s.acc)
  refine ⟨lowByte_toNat _, s.portWrite s.params.outPort (lowByte s.acc), rfl, rfl, by rw [hdev, List.length_map],
    fun k d hd => ?_⟩
  have hplace : (s.portWrite s.params.outPort (lowByte s.acc)).devices[k]? =
      some (d.busWritten s.params.outPort.toNat true (lowByte s.acc)) := by
    rw [hdev, List.getElem?_map, hd]; rfl
  exact ⟨_, hplace, d.busWritten_claims _ _ _,
    fun hno => Device.busWritten_of_not_responds hno _,
    fun hr => ⟨Device.busWritten_of_responds hr _,
      fun _ _ _ hk => Device.busWritten_console hr hk _,
      fun hst => Device.busWritten_cell_same (hm d (List.mem_of_getElem? hd)) hr hst _⟩,
    fun b hb => Device.busWritten_cell_other hb _ _ d⟩

/-- Settles O42: the environment acts on the blocking device only, and the read that goes on is one of the devices from
there on. -/
theorem blockedInstructionGoesOn : Obligations.BlockedInstructionGoesOn := by
  refine ⟨fun s i k hf ha hh => ⟨?goesOn, s.environmentActs_eq, fun j hj => ?others, s.environmentActs_cell k,
    s.environmentActs_claims⟩, fun s stage k a hh => ?read⟩
  case goesOn => exact step_of_execute_hold s i k (s.running_iff.2 ⟨ha, hf⟩) hh
  case others => rw [State.environmentActs_devices_of_hold hh, List.getElem?_modify_ne _ _ hj.symm]
  case read =>
    rw [State.busRead_of_hold hh]
    refine ⟨rfl, fun v hv => by rw [hv]; rfl, fun j hj => by rw [hj]; rfl, fun d hd hr => ?_⟩
    obtain ⟨pre, post, hdev, rfl⟩ := exists_append_of_getElem? hd
    rw [List.append_assoc] at hdev
    rw [hdev, List.take_left, List.drop_left, List.getElem?_append_right (Nat.le_refl _), Nat.sub_self]
    exact Bus.readFrom_cons_getElem?_zero hr none post

end Sys2Proof.Proofs.PortIoRules
end

section
/-! SUPPORT. The fatal conditions: the NoData of each phase as a state, which states a step that raises a condition can
answer, and what such a step leaves as it was (60_exceptions R182, R184). -/

namespace Sys2Proof.Machine

/-! ### A read that gets no data -/

/-- A condition raised after a bus read: beside the record, the read has changed the devices and ended the hold. -/
theorem State.raise_of_busRead {s t : State} {a : Nat} {r : ReadResult} (h : s.busRead a = (r, t)) (f : Fault) :
    t.raise f = { s with fault := some f, devices := t.devices, hold := none } := by
  rw [State.busRead_eq _ _ _ _ h]
  rfl

/-- A fetch that gets no data is fatal, with PC incremented (60_exceptions R182). -/
theorem stepInstr_of_noData {s t : State} (h : s.busRead s.pc = (.answered none, t)) :
    stepInstr s = .next ((t.writePc (s.pc + 1)).raise (.noData .fetch s.pc)) := by
  simp [stepInstr, State.fetchDecode, h]

/-- A memory operand that gets no data is fatal, whatever the instruction would have done with the Word. -/
theorem exec_of_noData {i : Instr} {s t : State} {x : Operand} (hi : dataOperand i = some x)
    (h : s.busRead (s.addressOf x) = (.answered none, t)) :
    exec i s = .next (t.raise (.noData .data (s.addressOf x))) := by
  obtain ⟨g, hexec, -⟩ := exec_of_dataOperand hi
  rw [hexec, h, State.useRead]

/-- An INP that gets no data is fatal, with its port read's last line done (44_io R172). -/
theorem exec_inp_of_noData {s t : State} (h : s.setIoRequest.busRead s.params.inPort.toNat = (.answered none, t))
    (x : Operand) : exec (.inp x) s = .next ((t.raise (.noData .port s.params.inPort.toNat)).clearIoRequest) := by
  rw [exec_inp_eq_useRead, State.portRead_of_answered h, State.useRead]
  rfl

/-! ### Which states a step that raises a condition answers -/

/-- An instruction that raises a condition has made its read, and does nothing after the record. -/
theorem exec_raises {i : Instr} {s t : State} {f : Fault} (hs : s.fault = none) (h : exec i s = .next t)
    (ht : t.fault = some f) : t = (readOf i s).2.raise f := by
  have kept {u : State} (hu : u.fault = s.fault) : u.fault ≠ some f := by rw [hu, hs]; nofun
  obtain ⟨m, hm, rfl⟩ := meaning_of_exec h
  cases hm with
  | halt | store | out | compute => exact absurd ht (kept rfl)
  | branch i hi => exact absurd ht (kept (by rw [State.branch_eq]))
  | read i phase addr g hw hr =>
    rcases s.readIntoAcc_cases i phase addr g with ⟨k, -, hres⟩ | ⟨-, hres⟩ | ⟨v, -, hres⟩ <;> rw [hres] at ht ⊢
    · exact absurd ht (kept (readOf_fault i s))
    · cases ht
      rfl
    · exact absurd ht (kept (readOf_fault i s))

/-- The state at the end of a fetch that is not held: the devices are read and PC is incremented (40_cycle R112). -/
def State.fetched (s : State) : State := (s.busRead s.pc).2.writePc (s.pc + 1)

/-- Fetch, decode and execute raise a condition at the end of the fetch, or at the end of the instruction's read. -/
theorem stepInstr_raises {s t : State} {f : Fault} (hs : s.fault = none) (h : stepInstr s = .next t)
    (ht : t.fault = some f) : t = s.fetched.raise f ∨ ∃ i, t = (readOf i s.fetched).2.raise f := by
  rcases stepInstr_cases h with ⟨k, u, hu, rfl⟩ | ⟨u, hu, rfl⟩ | ⟨w, u, hu, -, rfl⟩ | ⟨w, u, i, hu, -, hx⟩ <;>
    obtain rfl : (s.busRead s.pc).2 = u := congrArg Prod.snd hu
  · exact absurd (hs.symm.trans ht) nofun
  · cases ht
    exact .inl rfl
  · cases ht
    exact .inl rfl
  · exact .inr ⟨i, exec_raises hs hx ht⟩

/-! ### What a fatal condition leaves as it was -/

/-- What a fatal condition of the step may not touch: ACC, the flags, the run flag, the parameters and every storage
cell (92 D15). -/
structure State.Keeps (s t : State) : Prop where
  acc : t.acc = s.acc
  zero : t.zero = s.zero
  positive : t.positive = s.positive
  active : t.active = s.active
  params : t.params = s.params
  cell : ∀ k b, t.cell k b = s.cell k b

theorem State.Keeps.trans {s t u : State} (h : s.Keeps t) (h' : t.Keeps u) : s.Keeps u where
  acc := h'.acc.trans h.acc
  zero := h'.zero.trans h.zero
  positive := h'.positive.trans h.positive
  active := h'.active.trans h.active
  params := h'.params.trans h.params
  cell k b := (h'.cell k b).trans (h.cell k b)

theorem State.keeps_fetched (s : State) : s.Keeps s.fetched :=
  ⟨rfl, rfl, rfl, rfl, rfl, s.busRead_cell s.pc⟩

theorem State.keeps_environmentActs (s : State) : s.Keeps s.environmentActs :=
  ⟨s.environmentActs_acc, s.environmentActs_zero, s.environmentActs_positive, s.environmentActs_active,
    s.environmentActs_params, s.environmentActs_cell⟩

theorem State.keeps_raise (s : State) (f : Fault) : s.Keeps (s.raise f) :=
  ⟨rfl, rfl, rfl, rfl, rfl, fun _ _ => rfl⟩

theorem State.keeps_readOf (s : State) (i : Instr) : s.Keeps (readOf i s).2 :=
  ⟨readOf_acc i s, readOf_zero i s, readOf_positive i s, readOf_active i s, readOf_params i s, readOf_cell i s⟩

/-- A condition raised by an instruction touches PC no more, and waits in no read. -/
theorem exec_precise {i : Instr} {s t : State} {f : Fault} (hs : s.fault = none) (h : exec i s = .next t)
    (ht : t.fault = some f) : s.Keeps t ∧ t.hold = none ∧ t.pc = s.pc := by
  obtain rfl := exec_raises hs h ht
  exact ⟨(s.keeps_readOf i).trans (State.keeps_raise _ f), readOf_hold i s, readOf_pc i s⟩

/-- A condition raised in the fetch or after it finds PC incremented. -/
theorem stepInstr_precise {s t : State} {f : Fault} (hs : s.fault = none) (h : stepInstr s = .next t)
    (ht : t.fault = some f) : s.Keeps t ∧ t.hold = none ∧ t.pc = s.wrapAddress (s.pc + 1) := by
  rcases stepInstr_raises hs h ht with rfl | ⟨i, rfl⟩
  · exact ⟨s.keeps_fetched.trans (State.keeps_raise _ f), rfl, rfl⟩
  · exact ⟨(s.keeps_fetched.trans (State.keeps_readOf _ i)).trans (State.keeps_raise _ f),
      readOf_hold i _, readOf_pc i _⟩

/-- Every step that raises a condition is precise; PC stays where the instruction was fetched before a hold. -/
theorem step_precise {s t : State} {f : Fault} (hs : s.fault = none) (h : step s = .next t)
    (ht : t.fault = some f) : s.Keeps t ∧ t.hold = none ∧
      (t.pc = s.wrapAddress (s.pc + 1) ∨ (t.pc = s.pc ∧ ∃ i k, s.hold = some ⟨.execute i, k⟩)) := by
  have hwait : s.environmentActs.fault = none := s.environmentActs_fault.trans hs
  rcases step_cases h with ⟨-, rfl⟩ | ⟨-, -, hx⟩ | ⟨k, -, -, hx⟩ | ⟨i, k, -, hh, hx⟩
  · exact absurd (hs.symm.trans ht) nofun
  · obtain ⟨hkeep, hhold, hpc⟩ := stepInstr_precise hs hx ht
    exact ⟨hkeep, hhold, .inl hpc⟩
  · obtain ⟨hkeep, hhold, hpc⟩ := stepInstr_precise hwait hx ht
    rw [State.environmentActs_wrapAddress, State.environmentActs_pc] at hpc
    exact ⟨s.keeps_environmentActs.trans hkeep, hhold, .inl hpc⟩
  · obtain ⟨hkeep, hhold, hpc⟩ := exec_precise hwait hx ht
    exact ⟨s.keeps_environmentActs.trans hkeep, hhold, .inr ⟨hpc.trans s.environmentActs_pc, i, k, hh⟩⟩

end Sys2Proof.Machine
end

section
/-! The statements of 60_exceptions: NoData in each phase, and the precision of every fatal condition. -/

namespace Sys2Proof.Proofs.ExceptionRules

open Sys2Proof Sys2Proof.Machine

/-- Settles O43: the step makes reads and records the condition, and the invariant gives io_request clear where no read
is on hold. -/
theorem fatalConditionIsPrecise : Obligations.FatalConditionIsPrecise := by
  intro s t f hs hf h ht
  obtain ⟨hkeep, hhold, hpc⟩ := step_precise hf h ht
  exact ⟨hkeep.acc, hkeep.zero, hkeep.positive, hkeep.active, hkeep.params,
    (step_inv hs h).ioRequest_of_no_hold hhold, hhold, hkeep.cell, hpc⟩

/-- Settles O20: the six instructions share one read, and the condition ends them before ACC is written. -/
theorem memoryOperandNoDataIsFatal : Obligations.MemoryOperandNoDataIsFatal := by
  refine fun s t i a hi hread => ⟨?_, State.cell_of_busRead hread⟩
  rw [exec_of_noData hi hread, State.raise_of_busRead hread]

/-- Settles O26: the port read clears io-request before its answer is looked at. -/
theorem inpNoDataIsFatal : Obligations.InpNoDataIsFatal := by
  intro s t x hread
  rw [exec_inp_of_noData hread, State.raise_of_busRead hread]
  rfl

/-- Settles O40: PC is incremented before the answer of the fetch is looked at. -/
theorem fetchNoDataIsFatal : Obligations.FetchNoDataIsFatal := by
  intro s t hf ha hh hread
  rw [step_of_running s (s.running_iff.2 ⟨ha, hf⟩) hh, stepInstr_of_noData hread,
    State.writePc_of_busRead_of_no_hold hh hread]
  rfl

end Sys2Proof.Proofs.ExceptionRules
end

section
/-! SUPPORT. Setting up a run, the state after each round of `run()`, and which statuses come again and again in a run
that ends in a given way. -/

namespace Sys2Proof.Machine

/-! ### Setting up a run (70_reset R202) -/

theorem State.foldl_registerDevice (ds : List Device) (s : State) :
    ds.foldl (fun t d => t.registerDevice d) s = { s with devices := s.devices ++ ds } := by
  induction ds generalizing s with
  | nil => simp
  | cons d ds ih =>
    rw [List.foldl_cons, ih]
    simp [State.registerDevice, Bus.register]

theorem State.loadProgram_eq (program : List (Nat × Word)) (s : State) :
    s.loadProgram program =
      { s with devices := program.foldl (fun l line => Bus.write line.1 false line.2 l) s.devices } := by
  induction program generalizing s with
  | nil => rfl
  | cons line program ih => exact ih (s.loadWord line.1 line.2)

/-! ### Where one state stands -/

theorem State.status_eq_going_iff (s : State) : s.status = .going ↔ s.running = true ∧ s.hold = none := by
  rw [State.status, State.running_iff]
  split_ifs <;> simp_all [Option.isSome_iff_ne_none]

theorem State.status_eq_waiting_iff (s : State) : s.status = .waiting ↔ s.running = true ∧ ∃ h, s.hold = some h := by
  rw [State.status, State.running_iff, ← Option.isSome_iff_exists]
  split_ifs <;> simp_all [Option.isSome_iff_ne_none]

theorem State.status_eq_halted_or_faulted_iff (s : State) :
    s.status = .halted ∨ s.status = .faulted ↔ s.running = false := by
  rw [State.status, State.running_eq_false_iff, ← Option.isSome_iff_ne_none]
  split_ifs <;> simp_all

/-! ### The state after a number of rounds -/

theorem runFor_one (s : State) : runFor 1 s = step s := by
  cases hr : s.running with
  | false => rw [runFor_of_not_running 1 hr, step_of_not_running s hr]
  | true =>
    obtain ⟨t, ht⟩ := step_next s
    rw [runFor_succ_of_running 0 hr ht, ht]
    rfl

theorem runFor_next (n : Nat) (s : State) : ∃ t, runFor n s = .next t := by
  induction n with
  | zero => exact ⟨s, rfl⟩
  | succ n ih =>
    obtain ⟨t, ht⟩ := ih
    rw [runFor_add 1 ht, runFor_one]
    exact step_next t

/-- The state after `n` rounds of `run()`, which always answer one (`runFor_eq`). -/
def State.after (s : State) (n : Nat) : State :=
  match runFor n s with
  | .next t => t
  | _ => s

theorem runFor_eq (n : Nat) (s : State) : runFor n s = .next (s.after n) := by
  obtain ⟨t, ht⟩ := runFor_next n s
  simp [State.after, ht]

theorem runFor_eq_next_iff {n : Nat} {s t : State} : runFor n s = .next t ↔ s.after n = t := by
  simp [runFor_eq]

theorem step_after (s : State) (n : Nat) : step (s.after n) = .next (s.after (n + 1)) := by
  rw [← runFor_one, ← runFor_add 1 (runFor_eq n s), runFor_eq]

theorem State.after_of_not_running {s : State} {n m : Nat} (h : (s.after n).running = false) (hm : n ≤ m) :
    s.after m = s.after n := by
  obtain ⟨k, rfl⟩ := Nat.exists_eq_add_of_le hm
  rw [← runFor_eq_next_iff, runFor_add k (runFor_eq n s), runFor_of_not_running k h]

theorem State.after_devices_length (s : State) (n : Nat) : (s.after n).devices.length = s.devices.length := by
  have hplatform := runFor_keeps (P := s.samePlatform) (fun _ _ hu hx => hu.trans (step_samePlatform hx)) n
    ⟨rfl, rfl⟩ (runFor_eq n s)
  simpa using (congrArg List.length hplatform.1).symm

/-! ### The ways a run ends (70_reset R207) -/

open Filter

/-- The status that comes again and again in a run that ends in this way. -/
def RunEnd.status : RunEnd → RunStatus
  | .halted => .halted
  | .faulted => .faulted
  | .blocked => .waiting
  | .diverging => .going

theorem RunEnd.status_injective : Function.Injective RunEnd.status := by
  intro e e' h
  cases e <;> cases e' <;> cases h <;> rfl

/-- A machine that HALT or a fatal condition stopped keeps its status. -/
theorem State.eventually_status_of_stopped {s t : State} {n : Nat} {st : RunStatus} (ht : runFor n s = .next t)
    (hst : t.status = st) (h : st = .halted ∨ st = .faulted) : ∀ᶠ m in atTop, (s.after m).status = st := by
  obtain rfl := runFor_eq_next_iff.1 ht
  have hstop := (State.status_eq_halted_or_faulted_iff _).1 (hst ▸ h)
  exact eventually_atTop.2 ⟨n, fun m hm => by rw [State.after_of_not_running hstop hm, hst]⟩

theorem State.runEnds.eventually_status {s : State} {e : RunEnd} (h : s.runEnds e) (he : e ≠ .diverging) :
    ∀ᶠ m in atTop, (s.after m).status = e.status := by
  cases e with
  | halted =>
    obtain ⟨n, t, ht, hst⟩ := h
    exact State.eventually_status_of_stopped ht hst (.inl rfl)
  | faulted =>
    obtain ⟨n, t, ht, hst⟩ := h
    exact State.eventually_status_of_stopped ht hst (.inr rfl)
  | blocked =>
    obtain ⟨n, h, hwait⟩ := h
    refine eventually_atTop.2 ⟨n, fun m hm => ?_⟩
    obtain ⟨t, ht, hst, -⟩ := hwait m hm
    obtain rfl := runFor_eq_next_iff.1 ht
    exact hst
  | diverging => exact absurd rfl he

theorem State.runEnds.frequently_status {s : State} {e : RunEnd} (h : s.runEnds e) :
    ∃ᶠ m in atTop, (s.after m).status = e.status := by
  by_cases he : e = .diverging
  · subst he
    refine frequently_atTop.2 fun n => ?_
    obtain ⟨m, t, hm, ht, hst⟩ := h.2 n
    obtain rfl := runFor_eq_next_iff.1 ht
    exact ⟨m, hm, hst⟩
  · exact (h.eventually_status he).frequently

/-- Of two ways to end that are not both `diverging`, one settles the status and the other meets it again and again,
in some common round; so their statuses agree. -/
theorem State.runEnds.unique {s : State} {e e' : RunEnd} (h : s.runEnds e) (h' : s.runEnds e') : e = e' := by
  by_cases he : e = .diverging
  · by_cases he' : e' = .diverging
    · rw [he, he']
    · obtain ⟨m, hm, hm'⟩ := (h.frequently_status.and_eventually (h'.eventually_status he')).exists
      exact RunEnd.status_injective (hm.symm.trans hm')
  · obtain ⟨m, hm', hm⟩ := (h'.frequently_status.and_eventually (h.eventually_status he)).exists
    exact RunEnd.status_injective (hm.symm.trans hm')

/-- A machine that always waits comes to wait in one read: a read left for another has a lower rank
(`hold_progress`), so the read of least rank is never left. -/
theorem State.exists_hold_of_waiting {s : State} {n : Nat} (h : ∀ m, n ≤ m → (s.after m).status = .waiting) :
    ∃ k h₀, n ≤ k ∧ ∀ m, k ≤ m → (s.after m).hold = some h₀ := by
  have hwait : ∀ j, ∃ hj, (s.after (n + j)).hold = some hj := fun j =>
    ((State.status_eq_waiting_iff _).1 (h _ (Nat.le_add_right n j))).2
  choose held hheld using hwait
  obtain ⟨least, hleast⟩ : ∃ j, ∀ i, ¬ (held i).rank s.devices.length < (held j).rank s.devices.length :=
    ⟨Function.argmin _, Function.not_lt_argmin fun j => (held j).rank s.devices.length⟩
  refine ⟨n + least, held least, Nat.le_add_right _ _, fun m hm => ?_⟩
  induction m, hm using Nat.le_induction with
  | base => exact hheld least
  | succ m hm ih =>
    obtain ⟨j, rfl⟩ := Nat.exists_eq_add_of_le (Nat.le_of_add_right_le hm)
    have hrun := ((State.status_eq_waiting_iff _).1 (h _ (Nat.le_add_right n j))).1
    rcases hold_progress hrun ih (step_after s (n + j)) (hheld (j + 1)) with hsame | hless
    · rw [← hsame]
      exact hheld (j + 1)
    · rw [s.after_devices_length] at hless
      exact absurd hless (hleast (j + 1))

theorem State.exists_runEnds (s : State) : ∃ e, s.runEnds e := by
  by_cases hrun : ∀ n, (s.after n).running = true
  · by_cases hgoing : ∃ᶠ m in atTop, (s.after m).status = .going
    · refine ⟨.diverging, fun m => ⟨_, runFor_eq m s, hrun m⟩, fun n => ?_⟩
      obtain ⟨m, hm, hst⟩ := frequently_atTop.1 hgoing n
      exact ⟨m, _, hm, runFor_eq m s, hst⟩
    · obtain ⟨n, hn⟩ := eventually_atTop.1 (not_frequently.1 hgoing)
      have hwait : ∀ m, n ≤ m → (s.after m).status = .waiting := fun m hm =>
        (State.status_eq_waiting_iff _).2 ⟨hrun m, Option.ne_none_iff_exists'.1 fun hnone =>
          hn m hm ((State.status_eq_going_iff _).2 ⟨hrun m, hnone⟩)⟩
      obtain ⟨k, h₀, hk, hheld⟩ := State.exists_hold_of_waiting hwait
      exact ⟨.blocked, k, h₀, fun m hm => ⟨_, runFor_eq m s, hwait m (hk.trans hm), hheld m hm⟩⟩
  · obtain ⟨n, hn⟩ := not_forall.1 hrun
    rcases (State.status_eq_halted_or_faulted_iff _).2 (Bool.eq_false_of_not_eq_true hn) with hst | hst
    · exact ⟨.halted, n, _, runFor_eq n s, hst⟩
    · exact ⟨.faulted, n, _, runFor_eq n s, hst⟩

end Sys2Proof.Machine
end

section
/-! The statements of 70_reset_and_hazards: setting up a run, and the ways a run ends. -/

namespace Sys2Proof.Proofs.ResetRules

open Sys2Proof Sys2Proof.Machine

/-- Settles O48: registering appends, the loader writes to the devices only, and the CPU reset keeps them. -/
theorem bootRegistersAndLoads : Obligations.BootRegistersAndLoads := by
  intro p ds program
  rw [State.boot, State.foldl_registerDevice, State.loadProgram_eq]
  rfl

/-- Settles O52: a run that never stops, and is between two instructions only finitely often, comes to wait in one
read; and each way to end has a status of its own that comes again and again. -/
theorem everyRunEndsInExactlyOneWay : Obligations.EveryRunEndsInExactlyOneWay := by
  intro s
  obtain ⟨e, he⟩ := s.exists_runEnds
  exact ⟨e, he, fun _ he' => he'.unique he⟩

end Sys2Proof.Proofs.ResetRules
end

section
/-! The values after reset: 10_state R33, and 70_reset_and_hazards R200 and R201. -/

namespace Sys2Proof.Machine

/-- The state after reset is what resetting the CPU makes of it, so the laws of `resetCpu` speak of it too. -/
theorem State.resetCpu_reset : State.reset.resetCpu = State.reset := rfl

end Sys2Proof.Machine

namespace Sys2Proof.Proofs.ResetValues

open Sys2Proof Sys2Proof.Machine

/-- Settles O1, from the laws of `resetCpu` field by field; `State.reset` is its own CPU reset. -/
theorem resetLeavesTheseValues : Obligations.ResetLeavesTheseValues := by
  constructor
  · rw [← State.resetCpu_reset]
    simp
  · intro s
    simp

end Sys2Proof.Proofs.ResetValues
end
